-- ==== Sys2Proof/Word.lean ====
section
/-! DEFINITION. The words of the machine: bytes, 12-bit addresses, 16-bit instruction words and register
numbers (00_scope.md R6, R8). All values are unsigned. -/

namespace Sys2Proof

/-- A cell of memory, a general register or a timer: 8 bits (R6). -/
abbrev Byte := BitVec 8

/-- An address, the index register or the program counter: 12 bits (R6). -/
abbrev Addr := BitVec 12

/-- An instruction word: 16 bits (R61). -/
abbrev Word := BitVec 16

/-- The number of a general register, V0 to VF, or of a key, 0 to 15 (R11, R24). -/
abbrev Reg := Fin 16

end Sys2Proof
end

