-- ==== Sys2Proof/Syntax.lean ====
section
/-! DEFINITION. The instructions as syntax: one constructor for each row of spec/opcode_table.json
(30_encoding.md R65 to R70). A bit the decoder ignores is kept as an operand, so that a constructor with its
operands stands for exactly one word (log entry 22). -/

namespace Sys2Proof

/-- One constructor per row of the opcode table. `x`, `y` are register numbers, `kk` an 8-bit and `nnn` a 12-bit
immediate, `n` the low nibble (R62, R63). -/
inductive Instr where
  /-- 0000, the sentinel, "no instruction" (R82). -/
  | sentinel
  /-- 00E0 `CLS` (R141). -/
  | cls
  /-- 00EE `RET` (R104). -/
  | ret
  /-- 1NNN `JP nnn` (R101). -/
  | jp (nnn : Addr)
  /-- 2NNN `CALL nnn` (R103). -/
  | call (nnn : Addr)
  /-- 3XKK `SE Vx,kk` (R105). -/
  | seImm (x : Reg) (kk : Byte)
  /-- 4XKK `SNE Vx,kk` (R106). -/
  | sneImm (x : Reg) (kk : Byte)
  /-- 5XYN `SE Vx,Vy`, the low nibble `n` ignored (R107, R72). -/
  | seReg (x y : Reg) (n : BitVec 4)
  /-- 6XKK `LD Vx,kk` (R121). -/
  | ldImm (x : Reg) (kk : Byte)
  /-- 7XKK `ADD Vx,kk` (R122). -/
  | addImm (x : Reg) (kk : Byte)
  /-- 8XY0 `LD Vx,Vy` (R123). -/
  | ldReg (x y : Reg)
  /-- 8XY1 `OR Vx,Vy` (R124). -/
  | orReg (x y : Reg)
  /-- 8XY2 `AND Vx,Vy` (R125). -/
  | andReg (x y : Reg)
  /-- 8XY3 `XOR Vx,Vy` (R126). -/
  | xorReg (x y : Reg)
  /-- 8XY4 `ADD Vx,Vy` (R127). -/
  | addReg (x y : Reg)
  /-- 8XY5 `SUB Vx,Vy` (R128). -/
  | sub (x y : Reg)
  /-- 8XY6 `SHR Vx`, the field `y` ignored (R129, R72). -/
  | shr (x y : Reg)
  /-- 8XY7 `SUBN Vx,Vy` (R130). -/
  | subn (x y : Reg)
  /-- 8XYE `SHL Vx`, the field `y` ignored (R131, R72). -/
  | shl (x y : Reg)
  /-- 9XYN `SNE Vx,Vy`, the low nibble `n` ignored (R108, R72). -/
  | sneReg (x y : Reg) (n : BitVec 4)
  /-- ANNN `LD I,nnn` (R171). -/
  | ldI (nnn : Addr)
  /-- BNNN `JP V0,nnn` (R102). -/
  | jpV0 (nnn : Addr)
  /-- CXKK `RND Vx,kk` (R132). -/
  | rnd (x : Reg) (kk : Byte)
  /-- DXYN `DRW Vx,Vy,n` (R143). -/
  | drw (x y : Reg) (n : BitVec 4)
  /-- EX9E `SKP Vx` (R153). -/
  | skp (x : Reg)
  /-- EXA1 `SKNP Vx` (R154). -/
  | sknp (x : Reg)
  /-- FX07 `LD Vx,DT` (R150). -/
  | ldVxDt (x : Reg)
  /-- FX0A `LD Vx,K` (R155). -/
  | ldVxK (x : Reg)
  /-- FX15 `LD DT,Vx` (R151). -/
  | ldDtVx (x : Reg)
  /-- FX18 `LD ST,Vx` (R152). -/
  | ldStVx (x : Reg)
  /-- FX1E `ADD I,Vx` (R172). -/
  | addI (x : Reg)
  /-- FX29 `LD F,Vx` (R173). -/
  | ldF (x : Reg)
  /-- FX33 `LD B,Vx` (R174). -/
  | ldB (x : Reg)
  /-- FX55 `LD [I],Vx` (R176). -/
  | ldMemVx (x : Reg)
  /-- FX65 `LD Vx,[I]` (R177). -/
  | ldVxMem (x : Reg)
  /-- 0NNN with no entry in the sub-table of category 0x0 (R85, R71). -/
  | unrecognised0 (nnn : Addr)
  /-- 8XYN with no entry in the sub-table of category 0x8 (R85, R71). -/
  | unrecognised8 (x y : Reg) (n : BitVec 4)
  /-- EXKK with no entry in the sub-table of category 0xE (R85, R71). -/
  | unrecognisedE (x : Reg) (kk : Byte)
  /-- FXKK with no entry in the sub-table of category 0xF (R85, R71). -/
  | unrecognisedF (x : Reg) (kk : Byte)
  deriving DecidableEq, Repr

end Sys2Proof
end

