-- ==== Sys2Proof/WellFormed.lean ====
section
/-! DEFINITION. Which terms of Instr stand for a word of the machine. Every operand of a recognised instruction is
legal at every value (R11, R63); a catch-all row stands only for a word with no entry in its sub-table (R71 (b)). -/

namespace Sys2Proof

/-- The keys of the sub-table of category 0x0, without the category (R65). -/
def keys0 : List Addr := [0x000#12, 0x0E0#12, 0x0EE#12]

/-- The keys of the sub-table of category 0x8 (R67). -/
def keys8 : List (BitVec 4) := [0x0#4, 0x1#4, 0x2#4, 0x3#4, 0x4#4, 0x5#4, 0x6#4, 0x7#4, 0xE#4]

/-- The keys of the sub-table of category 0xE (R68). -/
def keysE : List Byte := [0x9E#8, 0xA1#8]

/-- The keys of the sub-table of category 0xF (R69). -/
def keysF : List Byte := [0x07#8, 0x0A#8, 0x15#8, 0x18#8, 0x1E#8, 0x29#8, 0x33#8, 0x55#8, 0x65#8]

/-- A term of Instr is well-formed when it stands for a word: the catch-all constructors only for words their
sub-table has no entry for (R70, R71). -/
def WellFormed : Instr → Bool
  | .unrecognised0 nnn => !keys0.contains nnn
  | .unrecognised8 _ _ n => !keys8.contains n
  | .unrecognisedE _ kk => !keysE.contains kk
  | .unrecognisedF _ kk => !keysF.contains kk
  | .sentinel | .cls | .ret | .jp _ | .call _ | .seImm _ _ | .sneImm _ _ | .seReg _ _ _ => true
  | .ldImm _ _ | .addImm _ _ | .ldReg _ _ | .orReg _ _ | .andReg _ _ | .xorReg _ _ => true
  | .addReg _ _ | .sub _ _ | .shr _ _ | .subn _ _ | .shl _ _ | .sneReg _ _ _ => true
  | .ldI _ | .jpV0 _ | .rnd _ _ | .drw _ _ _ | .skp _ | .sknp _ | .ldVxDt _ | .ldVxK _ => true
  | .ldDtVx _ | .ldStVx _ | .addI _ | .ldF _ | .ldB _ | .ldMemVx _ | .ldVxMem _ => true

end Sys2Proof
end

