-- ==== Sys2Proof/Decode.lean ====
section
/-! DEFINITION. The decoder of 30_encoding.md R75, a total function of the 16-bit word, and after it the encoder
written from the same tables (R65 to R69). The opcode numbers other than 0000, 00E0, 00EE, 6XKK, 8XY4 and 8XY5 are
those the spec supplies from general knowledge (decision D1, log entry 3). -/

namespace Sys2Proof

/-- The register number a 4-bit field holds (R62). -/
def Reg.ofBits (b : BitVec 4) : Reg := b.toFin

/-- The 4-bit field of a register number (R62). -/
def Reg.bits (r : Reg) : BitVec 4 := BitVec.ofFin r

/-- `CAT`, bits 15:12 (R62). -/
def Word.cat (w : Word) : BitVec 4 := w.extractLsb' 12 4

/-- `X`, bits 11:8 (R62). -/
def Word.x (w : Word) : Reg := Reg.ofBits (w.extractLsb' 8 4)

/-- `Y`, bits 7:4 (R62). -/
def Word.y (w : Word) : Reg := Reg.ofBits (w.extractLsb' 4 4)

/-- `N`, bits 3:0 (R62). -/
def Word.n (w : Word) : BitVec 4 := w.extractLsb' 0 4

/-- `KK`, bits 7:0 (R62). -/
def Word.kk (w : Word) : Byte := w.extractLsb' 0 8

/-- `NNN`, bits 11:0 (R62). -/
def Word.nnn (w : Word) : Addr := w.extractLsb' 0 12

/-- The sub-table of category 0x0, keyed by the full word (R65). -/
def decode0 (nnn : Addr) : Instr :=
  match nnn with
  | 0x000#12 => .sentinel
  | 0x0E0#12 => .cls
  | 0x0EE#12 => .ret
  | nnn => .unrecognised0 nnn

/-- The sub-table of category 0x8, keyed by the low nibble (R67). -/
def decode8 (x y : Reg) (n : BitVec 4) : Instr :=
  match n with
  | 0x0#4 => .ldReg x y
  | 0x1#4 => .orReg x y
  | 0x2#4 => .andReg x y
  | 0x3#4 => .xorReg x y
  | 0x4#4 => .addReg x y
  | 0x5#4 => .sub x y
  | 0x6#4 => .shr x y
  | 0x7#4 => .subn x y
  | 0xE#4 => .shl x y
  | n => .unrecognised8 x y n

/-- The sub-table of category 0xE, keyed by the low byte (R68). -/
def decodeE (x : Reg) (kk : Byte) : Instr :=
  match kk with
  | 0x9E#8 => .skp x
  | 0xA1#8 => .sknp x
  | kk => .unrecognisedE x kk

/-- The sub-table of category 0xF, keyed by the low byte (R69). -/
def decodeF (x : Reg) (kk : Byte) : Instr :=
  match kk with
  | 0x07#8 => .ldVxDt x
  | 0x0A#8 => .ldVxK x
  | 0x15#8 => .ldDtVx x
  | 0x18#8 => .ldStVx x
  | 0x1E#8 => .addI x
  | 0x29#8 => .ldF x
  | 0x33#8 => .ldB x
  | 0x55#8 => .ldMemVx x
  | 0x65#8 => .ldVxMem x
  | kk => .unrecognisedF x kk

/-- The instruction a word stands for, total on all 65536 words (R64, R66, R71, R75). -/
def decodeWord (w : Word) : Instr :=
  match w.cat with
  | 0x0#4 => decode0 (Word.nnn w)
  | 0x1#4 => .jp (Word.nnn w)
  | 0x2#4 => .call (Word.nnn w)
  | 0x3#4 => .seImm (Word.x w) (Word.kk w)
  | 0x4#4 => .sneImm (Word.x w) (Word.kk w)
  | 0x5#4 => .seReg (Word.x w) (Word.y w) (Word.n w)
  | 0x6#4 => .ldImm (Word.x w) (Word.kk w)
  | 0x7#4 => .addImm (Word.x w) (Word.kk w)
  | 0x8#4 => decode8 (Word.x w) (Word.y w) (Word.n w)
  | 0x9#4 => .sneReg (Word.x w) (Word.y w) (Word.n w)
  | 0xA#4 => .ldI (Word.nnn w)
  | 0xB#4 => .jpV0 (Word.nnn w)
  | 0xC#4 => .rnd (Word.x w) (Word.kk w)
  | 0xD#4 => .drw (Word.x w) (Word.y w) (Word.n w)
  | 0xE#4 => decodeE (Word.x w) (Word.kk w)
  | _ => decodeF (Word.x w) (Word.kk w)

/-- Why a sequence of bytes is no instruction. -/
inductive DecodeReject where
  /-- Fewer than the two bytes of an instruction word (R61, R73). Raised by `decodeBytes`; safe, and the fetch of
  `step` never meets it, since it always reads two cells (R81). -/
  | truncated
  deriving DecidableEq, Repr

/-- The word of two bytes as memory holds them, the high byte first (R43, R50). -/
def wordOfBytes (hi lo : Byte) : Word := hi ++ lo

/-- The instruction at the head of a sequence of bytes, with the rest of the sequence (R61, R73). -/
def decodeBytes : List Byte → Except DecodeReject (Instr × List Byte)
  | hi :: lo :: rest => .ok (decodeWord (wordOfBytes hi lo), rest)
  | [_] => .error .truncated
  | [] => .error .truncated

/-- The high byte of a word, which memory holds at the lower address (R50). -/
def highByte (w : Word) : Byte := w.extractLsb' 8 8

/-- The low byte of a word (R50). -/
def lowByte (w : Word) : Byte := w.extractLsb' 0 8

/-- The bytes of a word in the order memory holds them (R50). -/
def bytesOfWord (w : Word) : List Byte := [highByte w, lowByte w]

/-- The instruction the decoder reads from the word the opcode table numbers `w`, `nbits` bits long: the word is laid
out high byte first and given to `decodeBytes` (log entry 28). -/
def decodeTableWord (nbits w : Nat) : Option Instr :=
  if nbits ≤ 16 ∧ w < 2 ^ nbits then
    match decodeBytes (bytesOfWord (BitVec.ofNat 16 w)) with
    | .ok (i, _) => some i
    | .error _ => none
  else none

/-- Format NNN: a category and a 12-bit immediate (R61). -/
def fmtNNN (c : BitVec 4) (nnn : Addr) : Word := c ++ nnn

/-- Format XKK: a category, a register number and a byte (R61). -/
def fmtXKK (c : BitVec 4) (x : Reg) (kk : Byte) : Word := c ++ Reg.bits x ++ kk

/-- Format XYN: a category, two register numbers and a nibble (R61). -/
def fmtXYN (c : BitVec 4) (x y : Reg) (n : BitVec 4) : Word := c ++ Reg.bits x ++ Reg.bits y ++ n

/-- The word of an instruction (R65 to R69). -/
def encode : Instr → Word
  | .sentinel => 0x0000#16
  | .cls => 0x00E0#16
  | .ret => 0x00EE#16
  | .jp nnn => fmtNNN 0x1#4 nnn
  | .call nnn => fmtNNN 0x2#4 nnn
  | .seImm x kk => fmtXKK 0x3#4 x kk
  | .sneImm x kk => fmtXKK 0x4#4 x kk
  | .seReg x y n => fmtXYN 0x5#4 x y n
  | .ldImm x kk => fmtXKK 0x6#4 x kk
  | .addImm x kk => fmtXKK 0x7#4 x kk
  | .ldReg x y => fmtXYN 0x8#4 x y 0x0#4
  | .orReg x y => fmtXYN 0x8#4 x y 0x1#4
  | .andReg x y => fmtXYN 0x8#4 x y 0x2#4
  | .xorReg x y => fmtXYN 0x8#4 x y 0x3#4
  | .addReg x y => fmtXYN 0x8#4 x y 0x4#4
  | .sub x y => fmtXYN 0x8#4 x y 0x5#4
  | .shr x y => fmtXYN 0x8#4 x y 0x6#4
  | .subn x y => fmtXYN 0x8#4 x y 0x7#4
  | .shl x y => fmtXYN 0x8#4 x y 0xE#4
  | .sneReg x y n => fmtXYN 0x9#4 x y n
  | .ldI nnn => fmtNNN 0xA#4 nnn
  | .jpV0 nnn => fmtNNN 0xB#4 nnn
  | .rnd x kk => fmtXKK 0xC#4 x kk
  | .drw x y n => fmtXYN 0xD#4 x y n
  | .skp x => fmtXKK 0xE#4 x 0x9E#8
  | .sknp x => fmtXKK 0xE#4 x 0xA1#8
  | .ldVxDt x => fmtXKK 0xF#4 x 0x07#8
  | .ldVxK x => fmtXKK 0xF#4 x 0x0A#8
  | .ldDtVx x => fmtXKK 0xF#4 x 0x15#8
  | .ldStVx x => fmtXKK 0xF#4 x 0x18#8
  | .addI x => fmtXKK 0xF#4 x 0x1E#8
  | .ldF x => fmtXKK 0xF#4 x 0x29#8
  | .ldB x => fmtXKK 0xF#4 x 0x33#8
  | .ldMemVx x => fmtXKK 0xF#4 x 0x55#8
  | .ldVxMem x => fmtXKK 0xF#4 x 0x65#8
  | .unrecognised0 nnn => fmtNNN 0x0#4 nnn
  | .unrecognised8 x y n => fmtXYN 0x8#4 x y n
  | .unrecognisedE x kk => fmtXKK 0xE#4 x kk
  | .unrecognisedF x kk => fmtXKK 0xF#4 x kk

end Sys2Proof
end

