-- ==== Sys2Proof/Machine/Operation.lean ====
section
/-! DEFINITION. The operations of the block and the stream of them that the driver issues, as plain data
(60_exceptions.md R217; log entry 14). -/

namespace Sys2Proof.Machine

/-- The five operations of R217 that change the state; the driver issues them one at a time, each atomic. -/
inductive Operation where
  /-- Cycle: one fetch-decode-execute step (R80). -/
  | cycle
  /-- Tick: both timers count down (R212). -/
  | tick
  /-- SetKey: a key flag is set or cleared (R213). Its index type has exactly 16 values (D20, log entry 17). -/
  | setKey (k : Reg) (pressed : Bool)
  /-- LoadROM: a byte sequence is copied to 0x200 onward (R215). -/
  | loadRom (bytes : List Byte)
  /-- Reset: the construction of the machine (R216, R240). -/
  | reset
  deriving DecidableEq, Repr, Inhabited

/-- What the driver issues, without end, once its schedule is used up. -/
inductive Stream where
  /-- The same operations over and over; with none, cycles for ever. -/
  | loop (ops : List Operation)
  /-- The free stream `Config.operation` from its n-th operation on: any infinite sequence at all. -/
  | free (n : Nat)
  deriving DecidableEq, Repr

/-- The operations the driver will issue: those of the schedule, then those of the stream. -/
structure Driver where
  /-- The operations issued first, in order. -/
  schedule : List Operation
  /-- The operations issued after them. -/
  stream : Stream
  deriving DecidableEq, Repr

end Sys2Proof.Machine
end

