-- ==== Sys2Proof/Config.lean ====
section
/-! DEFINITION. What the spec fixes for the machine (00_scope.md R6), and the two free values of the model. -/

namespace Sys2Proof.Config

/-- `MEM_SIZE`: the number of cells of the Memory Bank (R6, R40). -/
def memSize : Nat := 4096

/-- `FONT_LEN`: the length of the glyph font, which lies at 0x000 (R6, R46). -/
abbrev fontLen : Nat := 80

/-- `PROG_BASE`: the load address of a program and the reset program counter (R6, R18). -/
def progBase : Addr := 0x200#12

/-- `ROM_MAX`: the longest loadable ROM, in bytes (R6, R215). -/
def romMax : Nat := 3584

/-- The byte of the entropy source's n-th draw, when the driver has injected none: a FREE VALUE, with no body, so
that no proof can rest on it (R132, R214; 93_implementation_defined.md U4; log entry 13). -/
opaque randByte : Nat → Byte

/-- The n-th operation of the driver's free stream: a FREE VALUE, with no body. Whatever a proof shows of a state whose
driver issues it holds for every infinite sequence of operations (R217, R7; log entry 14). -/
opaque operation : Nat → Machine.Operation

end Sys2Proof.Config
end

