-- ==== Sys2Proof/Machine/State.lean ====
section
/-! DEFINITION. The state of the machine as plain data (10_state.md R10), the reasons a step can stop, and the state
after reset (70_reset_and_hazards.md R240). The last four fields are the model's own: a parameter of the machine and
the inputs from outside the block. -/

namespace Sys2Proof.Machine

/-- The display buffer, `disp[row][column]`: 32 rows of 64 one-bit pixels (R25). -/
abbrev Display := Vector (Vector Bool 64) 32

/-- The reasons a step stops with a fault: the complete list of R203. A fault changes nothing and is delivered to the
driver as the status of the cycle (R200, R204, R207; log entry 8). -/
inductive Fault where
  /-- `StackOverflow`, raised by `CALL` when `sp = 16` (R201). Safe: the spec has the driver see the same. -/
  | stackOverflow
  /-- `StackUnderflow`, raised by `RET` when `sp = 0` (R202). Safe: the spec has the driver see the same. -/
  | stackUnderflow
  deriving DecidableEq, Repr

/-- The reasons a step is refused. -/
inductive Refusal where
  /-- An instruction with no meaning yet, raised by its arm in `exec`; safe. Every instruction of the table has its
  meaning, so no arm raises it. -/
  | notModelled (mnemonic : String)
  deriving DecidableEq, Repr

/-- The state of the block (R10). -/
structure State where
  /-- V0 to VF (R11); VF is the flag register (R14). -/
  v : Vector Byte 16
  /-- The index register I (R17). -/
  idx : Addr
  /-- The program counter (R18). -/
  pc : Addr
  /-- The 16 cells of the call stack; the live ones are those below `sp` (R21). -/
  stack : Vector Addr 16
  /-- The stack pointer, 0 to 16 (R21; log entry 25). -/
  sp : Fin 17
  /-- The delay timer DT (R23). -/
  dt : Byte
  /-- The sound timer ST (R23). -/
  st : Byte
  /-- The keypad latch; `true` is pressed (R24). -/
  keys : Vector Bool 16
  /-- The display buffer (R25). -/
  disp : Display
  /-- The Memory Bank (R40): the cells that differ from what they hold at reset, addresses strictly rising. -/
  mem : List Host.Cell
  /-- The parameter FONT, what 0x000 to 0x04F hold at reset (R7, R47; log entry 2). No step changes it. -/
  font : Vector Byte Config.fontLen
  /-- The operations the driver will issue, a stream without end (R217; log entry 14). -/
  driver : Driver
  /-- The bytes injected into the entropy source and not yet drawn (R214; log entry 13). -/
  entropy : List Byte
  /-- How many bytes have been drawn from the entropy source (R214; log entry 13). -/
  draws : Nat
  deriving DecidableEq, Repr

/-- The state that construction leaves, for a given FONT (R32, R33, R240). Memory lists nothing: every cell holds its
reset content. The stack cells have no reset value in the spec and are taken as 0 (R22, log entry 12). -/
def State.initial (font : Vector Byte Config.fontLen) : State where
  v := Vector.replicate 16 0#8
  idx := 0#12
  pc := Config.progBase
  stack := Vector.replicate 16 0#12
  sp := 0
  dt := 0#8
  st := 0#8
  keys := Vector.replicate 16 false
  disp := Vector.replicate 32 (Vector.replicate 64 false)
  mem := []
  font := font
  driver := ⟨[], .loop []⟩
  entropy := []
  draws := 0

/-- The state right after reset, with the default FONT (R240, R47). -/
def State.reset : State := State.initial defaultFont

end Sys2Proof.Machine
end

