-- ==== Sys2Proof/Machine/Ops.lean ====
section
/-! DEFINITION. The named operations over registers, the program counter, the call stack, memory and the display, and
the one operation that raises a fault. Every reader and writer of a component goes through them. -/

namespace Sys2Proof.Machine

/-- `raise <Fault>`: the cycle ends with the fault and changes nothing, and the fault goes to the driver; there is no
trap entry and no handler (R8, R87, R204, R207). -/
def raise (f : Fault) : Host.Outcome State Fault Refusal := .fault f

/-! Registers. -/

/-- `V[x]` (R8, R11). -/
def State.reg (s : State) (x : Reg) : Byte := s.v[x.val]

/-- `V[x] <- b` (R8, R11). -/
def State.setReg (s : State) (x : Reg) (b : Byte) : State := { s with v := s.v.set x.val b }

/-- The number of VF, the flag register (R14). -/
def regVF : Reg := 15

/-- `I <- a` (R17). -/
def State.setIdx (s : State) (a : Addr) : State := { s with idx := a }

/-- `pc <- a` (R18). -/
def State.setPc (s : State) (a : Addr) : State := { s with pc := a }

/-- `pc2`, the program counter after the decode-time advance, modulo 4096 (R83; D5, log entry 6). -/
def State.pc2 (s : State) : Addr := s.pc + 2#12

/-- The decode-time advance, `pc <- pc2` (R83). -/
def State.advance (s : State) : State := s.setPc s.pc2

/-- The advance, and 2 more when the condition of a skip holds (R86). -/
def State.skipIf (s : State) (c : Bool) : State := if c then s.advance.setPc (s.pc2 + 2#12) else s.advance

/-- `DT <- b` (R23). -/
def State.setDt (s : State) (b : Byte) : State := { s with dt := b }

/-- `ST <- b` (R23). -/
def State.setSt (s : State) (b : Byte) : State := { s with st := b }

/-- `key[k]` (R24). -/
def State.key (s : State) (k : Reg) : Bool := s.keys[k.val]

/-- `key[k] <- pressed` (R213). -/
def State.setKey (s : State) (k : Reg) (pressed : Bool) : State := { s with keys := s.keys.set k.val pressed }

/-! The call stack (R21). -/

/-- `stack[sp] <- a; sp <- sp + 1`, or StackOverflow when the stack is full (R21, R103, R201). -/
def State.push (s : State) (a : Addr) : Except Fault State :=
  if h : s.sp.val < 16 then
    .ok { s with stack := s.stack.set s.sp.val a, sp := ⟨s.sp.val + 1, Nat.succ_lt_succ h⟩ }
  else .error .stackOverflow

/-- `sp <- sp - 1`, and the address `stack[sp]`, or StackUnderflow when the stack is empty. The popped cell keeps its
content, which nothing can observe (R21, R22, R104, R202). -/
def State.pop (s : State) : Except Fault (Addr × State) :=
  if h : 0 < s.sp.val then
    have hb : s.sp.val - 1 < 16 := by have := s.sp.isLt; omega
    .ok (s.stack[s.sp.val - 1], { s with sp := ⟨s.sp.val - 1, Nat.lt_succ_of_lt hb⟩ })
  else .error .stackUnderflow

/-! Memory (R40 to R44). -/

/-- What an unlisted address reads as: the content the cell has at reset, FONT at 0x000 to 0x04F and 0x00 elsewhere
(R33, R46, R240). -/
def Memory.unlisted (font : Vector Byte Config.fontLen) (a : Nat) : Byte :=
  if h : a < Config.fontLen then font[a] else 0#8

/-- The byte listed at an address, if one is. -/
def Memory.lookup : List Host.Cell → Nat → Option Byte
  | [], _ => none
  | (b, w) :: m, a => if b = a then some w else Memory.lookup m a

/-- The byte at an address. -/
def Memory.get (font : Vector Byte Config.fontLen) (m : List Host.Cell) (a : Nat) : Byte :=
  (Memory.lookup m a).getD (Memory.unlisted font a)

/-- The list without an address. -/
def Memory.erase (m : List Host.Cell) (a : Nat) : List Host.Cell := m.filter fun c => c.1 != a

/-- The list with a byte listed at an address, in its place in the order. -/
def Memory.put : List Host.Cell → Nat → Byte → List Host.Cell
  | [], a, v => [(a, v)]
  | (b, w) :: m, a, v =>
    if a < b then (a, v) :: (b, w) :: m
    else if a = b then (a, v) :: m
    else (b, w) :: Memory.put m a v

/-- The memory with a byte written; the reset content is not listed, so that equal memories are equal lists. -/
def Memory.set (font : Vector Byte Config.fontLen) (m : List Host.Cell) (a : Nat) (v : Byte) : List Host.Cell :=
  if v = Memory.unlisted font a then Memory.erase m a else Memory.put m a v

/-- The canonical form: addresses strictly rising and below 4096, and no cell equal to what it reads as unlisted. -/
abbrev Memory.wf (font : Vector Byte Config.fontLen) (m : List Host.Cell) : Prop :=
  m.Pairwise (fun c d => c.1 < d.1) ∧ ∀ c ∈ m, c.1 < Config.memSize ∧ c.2 ≠ Memory.unlisted font c.1

/-- `MemRead(a, 1)`: an address has 12 bits, so it is already reduced modulo 4096 (R41, R44; D4, log entry 5). -/
def State.readByte (s : State) (a : Addr) : Byte := Memory.get s.font s.mem a.toNat

/-- `MemWrite(a, 1, v)` (R42). -/
def State.writeByte (s : State) (a : Addr) (v : Byte) : State :=
  { s with mem := Memory.set s.font s.mem a.toNat v }

/-- `MemRead(a, 2)`, used by fetch alone: the high byte at the lower address (R43, R50). -/
def State.readWord (s : State) (a : Addr) : Word := wordOfBytes (s.readByte a) (s.readByte (a + 1#12))

/-- Bytes written to consecutive addresses from `a` on, modulo 4096. -/
def State.writeBytes (s : State) (a : Addr) : List Byte → State
  | [] => s
  | b :: bs => (s.writeByte a b).writeBytes (a + 1#12) bs

/-! The display (R25). -/

/-- `disp[r][c]` (R8). -/
def State.pixel (s : State) (r : Fin 32) (c : Fin 64) : Bool := s.disp[r.val][c.val]

/-- The display is replaced. -/
def State.setDisp (s : State) (d : Display) : State := { s with disp := d }

/-- The display with every pixel 0 (R141). -/
def Display.clear : Display := Vector.replicate 32 (Vector.replicate 64 false)

/-- `disp[r][c]` of a display. -/
def Display.get (d : Display) (r : Fin 32) (c : Fin 64) : Bool := d[r.val][c.val]

/-- The display with one pixel XORed with 1 (R143). -/
def Display.toggle (d : Display) (r : Fin 32) (c : Fin 64) : Display :=
  d.set r.val (d[r.val].set c.val (!(Display.get d r c)))

/-! The entropy source (R214). -/

/-- `rand`: the next injected byte, or, when none is injected, a free value (R132, R214; U4, log entry 13). -/
def State.rand (s : State) : Byte :=
  match s.entropy with
  | b :: _ => b
  | [] => Config.randByte s.draws

/-- The state after one draw (R214: read exactly once by a cycle that executes `RND`). -/
def State.drawn (s : State) : State := { s with entropy := s.entropy.tail, draws := s.draws + 1 }

end Sys2Proof.Machine
end

