-- ==== Sys2Proof/Machine/Flags.lean ====
section
/-! DEFINITION. The flag computations (10_state.md R14, 42_alu.md R134), and the order of the two writes of an
instruction that writes a result and VF. The hardware has no other flag (R14, R133). -/

namespace Sys2Proof.Machine

/-- VF's value for a flag: always 0x00 or 0x01 (R14). -/
def flagByte (c : Bool) : Byte := if c then 1#8 else 0#8

/-- The carry of `a + b`: the mathematical sum exceeds 255 (R127). -/
def carryOut (a b : Byte) : Bool := decide (255 < a.toNat + b.toNat)

/-- No borrow in `a - b`: `a ≥ b` (R128, R130). -/
def noBorrow (a b : Byte) : Bool := decide (b.toNat ≤ a.toNat)

/-- The bit `SHR` shifts out: bit 0 (R129). -/
def lowBit (a : Byte) : Bool := a.getLsbD 0

/-- The bit `SHL` shifts out: bit 7 (R131). -/
def highBit (a : Byte) : Bool := a.getLsbD 7

/-- `V[X] <- result`, then `V[0xF] <- flag`: VF is written last, so with X = 0xF the flag remains (R15). -/
def State.setRegFlag (s : State) (x : Reg) (result : Byte) (flag : Bool) : State :=
  (s.setReg x result).setReg regVF (flagByte flag)

end Sys2Proof.Machine
end

