-- ==== Sys2Proof/Machine/Alu.lean ====
section
/-! DEFINITION. The ALU and register instructions (42_alu.md R120 to R134). Both sources are read before any write,
and every one of them ends at `pc2`. -/

namespace Sys2Proof.Machine

/-- `V[X] <- b` with no flag side effect, and the advance. -/
def State.loadReg (s : State) (x : Reg) (b : Byte) : State := (s.setReg x b).advance

/-- `V[X] <- b`, VF <- flag written last, and the advance (R15). -/
def State.loadRegFlag (s : State) (x : Reg) (b : Byte) (flag : Bool) : State := (s.setRegFlag x b flag).advance

/-- 6XKK `LD Vx,kk` (R121). -/
def execLdImm (x : Reg) (kk : Byte) (s : State) : Host.Outcome State Fault Refusal := .next (s.loadReg x kk)

/-- 7XKK `ADD Vx,kk`: modulo 256, VF unaffected (R122). -/
def execAddImm (x : Reg) (kk : Byte) (s : State) : Host.Outcome State Fault Refusal :=
  .next (s.loadReg x (s.reg x + kk))

/-- 8XY0 `LD Vx,Vy` (R123). -/
def execLdReg (x y : Reg) (s : State) : Host.Outcome State Fault Refusal := .next (s.loadReg x (s.reg y))

/-- 8XY1 `OR Vx,Vy` (R124). -/
def execOrReg (x y : Reg) (s : State) : Host.Outcome State Fault Refusal :=
  .next (s.loadReg x (s.reg x ||| s.reg y))

/-- 8XY2 `AND Vx,Vy` (R125). -/
def execAndReg (x y : Reg) (s : State) : Host.Outcome State Fault Refusal :=
  .next (s.loadReg x (s.reg x &&& s.reg y))

/-- 8XY3 `XOR Vx,Vy` (R126). -/
def execXorReg (x y : Reg) (s : State) : Host.Outcome State Fault Refusal :=
  .next (s.loadReg x (s.reg x ^^^ s.reg y))

/-- 8XY4 `ADD Vx,Vy` (R127). -/
def execAddReg (x y : Reg) (s : State) : Host.Outcome State Fault Refusal :=
  .next (s.loadRegFlag x (s.reg x + s.reg y) (carryOut (s.reg x) (s.reg y)))

/-- 8XY5 `SUB Vx,Vy` (R128). -/
def execSub (x y : Reg) (s : State) : Host.Outcome State Fault Refusal :=
  .next (s.loadRegFlag x (s.reg x - s.reg y) (noBorrow (s.reg x) (s.reg y)))

/-- 8XY6 `SHR Vx`: VX alone, VY ignored (R129, R72). -/
def execShr (x _y : Reg) (s : State) : Host.Outcome State Fault Refusal :=
  .next (s.loadRegFlag x (s.reg x >>> 1) (lowBit (s.reg x)))

/-- 8XY7 `SUBN Vx,Vy` (R130). -/
def execSubn (x y : Reg) (s : State) : Host.Outcome State Fault Refusal :=
  .next (s.loadRegFlag x (s.reg y - s.reg x) (noBorrow (s.reg y) (s.reg x)))

/-- 8XYE `SHL Vx`: VX alone, VY ignored (R131, R72). -/
def execShl (x _y : Reg) (s : State) : Host.Outcome State Fault Refusal :=
  .next (s.loadRegFlag x (s.reg x <<< 1) (highBit (s.reg x)))

/-- CXKK `RND Vx,kk`: the one instruction that draws from the entropy source, once (R132, R214). -/
def execRnd (x : Reg) (kk : Byte) (s : State) : Host.Outcome State Fault Refusal :=
  .next (s.drawn.loadReg x (s.rand &&& kk))

end Sys2Proof.Machine
end

