-- ==== Sys2Proof/Machine/Operands.lean ====
section
/-! DEFINITION. The operand forms: effective addresses, key indexes, decimal digits, glyph addresses and the geometry
of a sprite. -/

namespace Sys2Proof.Machine

/-- `EA = (I + k) mod 4096`, the one addressing mode (R170, R44). -/
def State.ea (s : State) (k : Nat) : Addr := s.idx + BitVec.ofNat 12 k

/-- The register the k-th move of a dump or a load names; `k` runs from 0 to 15 (R176, R177). -/
def regAt (k : Nat) : Reg := Fin.ofNat 16 k

/-- `NNN + zext_12(V0)` modulo 4096, the target of `JP V0,nnn` (R102; D5, log entry 6). -/
def State.offsetTarget (s : State) (nnn : Addr) : Addr := nnn + (s.reg 0).setWidth 12

/-- `I + zext_12(b)` modulo 4096 (R172). -/
def State.idxPlus (s : State) (b : Byte) : Addr := s.idx + b.setWidth 12

/-- The address of the glyph of the low nibble of `b`: five bytes a glyph from 0x000 on (R173). -/
def glyphAddr (b : Byte) : Addr := (b &&& 0x0F#8).setWidth 12 * 5#12

/-- A key index taken from a register: its low 4 bits (R156; D6, log entry 7). -/
def keyIndex (b : Byte) : Reg := Reg.ofBits (b.extractLsb' 0 4)

/-- The least pressed key, if one is pressed (R155). -/
def State.firstKey (s : State) : Option Reg := (List.finRange 16).find? s.key

/-- The hundreds digit of a byte (R174). -/
def hundreds (b : Byte) : Byte := BitVec.ofNat 8 (b.toNat / 100)

/-- The tens digit of a byte (R174). -/
def tens (b : Byte) : Byte := BitVec.ofNat 8 (b.toNat / 10 % 10)

/-- The units digit of a byte (R174). -/
def units (b : Byte) : Byte := BitVec.ofNat 8 (b.toNat % 10)

/-- The display row of row `r` of a sprite with its origin at `y0` (R142). -/
def spriteRow (y0 r : Nat) : Fin 32 := Fin.ofNat 32 (y0 + r)

/-- The display column of column `c` of a sprite with its origin at `x0` (R142). -/
def spriteCol (x0 c : Nat) : Fin 64 := Fin.ofNat 64 (x0 + c)

/-- Bit `c` of a sprite byte, the most significant first (R142). -/
def spriteBit (b : Byte) (c : Nat) : Bool := b.getLsbD (7 - c)

end Sys2Proof.Machine
end

