-- ==== Sys2Proof/Machine/Control.lean ====
section
/-! DEFINITION. The control-flow instructions (41_control_flow.md R100 to R108). A fault is found before anything is
committed, so a faulting cycle keeps the pre-cycle state (R87). -/

namespace Sys2Proof.Machine

/-- 1NNN `JP nnn` (R101). -/
def execJp (nnn : Addr) (s : State) : Host.Outcome State Fault Refusal := .next (s.setPc nnn)

/-- BNNN `JP V0,nnn` (R102). -/
def execJpV0 (nnn : Addr) (s : State) : Host.Outcome State Fault Refusal := .next (s.setPc (s.offsetTarget nnn))

/-- 2NNN `CALL nnn`: `pc2` is pushed (R103). -/
def execCall (nnn : Addr) (s : State) : Host.Outcome State Fault Refusal :=
  match s.push s.pc2 with
  | .ok t => .next (t.setPc nnn)
  | .error f => raise f

/-- 00EE `RET` (R104). -/
def execRet (s : State) : Host.Outcome State Fault Refusal :=
  match s.pop with
  | .ok (a, t) => .next (t.setPc a)
  | .error f => raise f

/-- 3XKK `SE Vx,kk` (R105). -/
def execSeImm (x : Reg) (kk : Byte) (s : State) : Host.Outcome State Fault Refusal :=
  .next (s.skipIf (s.reg x == kk))

/-- 4XKK `SNE Vx,kk` (R106). -/
def execSneImm (x : Reg) (kk : Byte) (s : State) : Host.Outcome State Fault Refusal :=
  .next (s.skipIf (s.reg x != kk))

/-- 5XYN `SE Vx,Vy`, the low nibble ignored (R107, R72). -/
def execSeReg (x y : Reg) (_n : BitVec 4) (s : State) : Host.Outcome State Fault Refusal :=
  .next (s.skipIf (s.reg x == s.reg y))

/-- 9XYN `SNE Vx,Vy`, the low nibble ignored (R108, R72). -/
def execSneReg (x y : Reg) (_n : BitVec 4) (s : State) : Host.Outcome State Fault Refusal :=
  .next (s.skipIf (s.reg x != s.reg y))

end Sys2Proof.Machine
end

