-- ==== Sys2Proof/Machine/IndexMemory.lean ====
section
/-! DEFINITION. The index, memory and BCD instructions (45_memory_bcd.md R170 to R178). None of the accesses changes
I (R178; D9, log entry 10). -/

namespace Sys2Proof.Machine

/-- The registers V0 to V(count - 1) stored from I on (R176). -/
def State.dumpRegs (s : State) (count : Nat) : State :=
  (List.range count).foldl (fun t k => t.writeByte (s.ea k) (s.reg (regAt k))) s

/-- The registers V0 to V(count - 1) loaded from I on (R177). -/
def State.loadRegs (s : State) (count : Nat) : State :=
  (List.range count).foldl (fun t k => t.setReg (regAt k) (s.readByte (s.ea k))) s

/-- The three decimal digits of a byte stored at I, I + 1 and I + 2 (R174). -/
def State.storeDigits (s : State) (b : Byte) : State :=
  ((s.writeByte (s.ea 0) (hundreds b)).writeByte (s.ea 1) (tens b)).writeByte (s.ea 2) (units b)

/-- ANNN `LD I,nnn` (R171; D2, log entry 4). -/
def execLdI (nnn : Addr) (s : State) : Host.Outcome State Fault Refusal := .next (s.setIdx nnn).advance

/-- FX1E `ADD I,Vx`: modulo 4096, no flag (R172). -/
def execAddI (x : Reg) (s : State) : Host.Outcome State Fault Refusal := .next (s.setIdx (s.idxPlus (s.reg x))).advance

/-- FX29 `LD F,Vx` (R173). -/
def execLdF (x : Reg) (s : State) : Host.Outcome State Fault Refusal := .next (s.setIdx (glyphAddr (s.reg x))).advance

/-- FX33 `LD B,Vx` (R174). -/
def execLdB (x : Reg) (s : State) : Host.Outcome State Fault Refusal := .next (s.storeDigits (s.reg x)).advance

/-- FX55 `LD [I],Vx` (R176). -/
def execLdMemVx (x : Reg) (s : State) : Host.Outcome State Fault Refusal := .next (s.dumpRegs (x.val + 1)).advance

/-- FX65 `LD Vx,[I]` (R177). -/
def execLdVxMem (x : Reg) (s : State) : Host.Outcome State Fault Refusal := .next (s.loadRegs (x.val + 1)).advance

end Sys2Proof.Machine
end

