-- ==== Sys2Proof/Machine/NoOps.lean ====
section
/-! DEFINITION. The words with no handler: the sentinel and the unrecognised words (40_fetch_decode.md R82, R85). -/

namespace Sys2Proof.Machine

/-- 0000, the sentinel: no state changes, `pc` included (R82). -/
def execSentinel (s : State) : Host.Outcome State Fault Refusal := .next s

/-- A no-op after the advance: the whole effect of an unrecognised word (R85). -/
def State.noOp (s : State) : State := s.advance

/-- 0NNN with no table entry (R85). -/
def execUnrecognised0 (_nnn : Addr) (s : State) : Host.Outcome State Fault Refusal := .next s.noOp

/-- 8XYN with no table entry (R85). -/
def execUnrecognised8 (_x _y : Reg) (_n : BitVec 4) (s : State) : Host.Outcome State Fault Refusal := .next s.noOp

/-- EXKK with no table entry (R85). -/
def execUnrecognisedE (_x : Reg) (_kk : Byte) (s : State) : Host.Outcome State Fault Refusal := .next s.noOp

/-- FXKK with no table entry (R85). -/
def execUnrecognisedF (_x : Reg) (_kk : Byte) (s : State) : Host.Outcome State Fault Refusal := .next s.noOp

end Sys2Proof.Machine
end

