-- ==== Sys2Proof/Machine/Screen.lean ====
section
/-! DEFINITION. The display instructions (43_display.md R140 to R145). The blit is the loop of R143: rows of a sprite,
bits of a row, one pixel at a time, with the collision carried along. -/

namespace Sys2Proof.Machine

/-- The display and the collision so far. -/
abbrev Blit := Display × Bool

/-- One bit of a sprite: a 1 records a collision if the pixel is 1, and toggles it; a 0 does nothing (R143 (b)). -/
def plotBit (d : Blit) (bit : Bool) (r : Fin 32) (c : Fin 64) : Blit :=
  if bit then (Display.toggle d.1 r c, d.2 || Display.get d.1 r c) else d

/-- One row of a sprite: its 8 bits, the most significant first (R143). -/
def plotRow (d : Blit) (b : Byte) (row : Fin 32) (x0 : Nat) : Blit :=
  (List.range 8).foldl (fun e c => plotBit e (spriteBit b c) row (spriteCol x0 c)) d

/-- A sprite of `n` rows, read from I on, with its origin at `(x0, y0)` (R142, R143). -/
def State.blit (s : State) (x0 y0 n : Nat) : Blit :=
  (List.range n).foldl (fun e r => plotRow e (s.readByte (s.ea r)) (spriteRow y0 r) x0) (s.disp, false)

/-- 00E0 `CLS` (R141). -/
def execCls (s : State) : Host.Outcome State Fault Refusal := .next (s.setDisp Display.clear).advance

/-- DXYN `DRW Vx,Vy,n`: the origin is read before VF is written (R143 (e); D8, log entry 9), and VF is written also
when `n = 0` (R143 (a)). -/
def execDrw (x y : Reg) (n : BitVec 4) (s : State) : Host.Outcome State Fault Refusal :=
  let d := s.blit ((s.reg x).toNat % 64) ((s.reg y).toNat % 32) n.toNat
  .next ((s.setDisp d.1).setReg regVF (flagByte d.2)).advance

end Sys2Proof.Machine
end

