-- ==== Sys2Proof/Machine/TimerKeypad.lean ====
section
/-! DEFINITION. The timer and keypad instructions (44_timer_keypad.md R149 to R157). -/

namespace Sys2Proof.Machine

/-- FX07 `LD Vx,DT` (R150). -/
def execLdVxDt (x : Reg) (s : State) : Host.Outcome State Fault Refusal := .next (s.setReg x s.dt).advance

/-- FX15 `LD DT,Vx` (R151). -/
def execLdDtVx (x : Reg) (s : State) : Host.Outcome State Fault Refusal := .next (s.setDt (s.reg x)).advance

/-- FX18 `LD ST,Vx` (R152). -/
def execLdStVx (x : Reg) (s : State) : Host.Outcome State Fault Refusal := .next (s.setSt (s.reg x)).advance

/-- EX9E `SKP Vx` (R153). -/
def execSkp (x : Reg) (s : State) : Host.Outcome State Fault Refusal :=
  .next (s.skipIf (s.key (keyIndex (s.reg x))))

/-- EXA1 `SKNP Vx` (R154). -/
def execSknp (x : Reg) (s : State) : Host.Outcome State Fault Refusal :=
  .next (s.skipIf (!s.key (keyIndex (s.reg x))))

/-- FX0A `LD Vx,K`: with no key pressed the advance is rolled back by 2, so that the same instruction runs at the next
cycle (R155, R30). -/
def execLdVxK (x : Reg) (s : State) : Host.Outcome State Fault Refusal :=
  match s.firstKey with
  | some k => .next (s.setReg x (BitVec.ofNat 8 k.val)).advance
  | none => .next (s.advance.setPc (s.pc2 - 2#12))

end Sys2Proof.Machine
end

