-- ==== Sys2Proof/Machine/External.lean ====
section
/-! DEFINITION. The operations of the driver other than Cycle (60_exceptions.md R212, R213, R215, R216), each a function
of the state. -/

namespace Sys2Proof.Machine

/-- A timer after one tick: one less, floored at 0 (R212). -/
def countDown (b : Byte) : Byte := if b = 0#8 then 0#8 else b - 1#8

/-- Tick: each timer counts down independently, and nothing else changes (R212). -/
def State.tick (s : State) : State := (s.setDt (countDown s.dt)).setSt (countDown s.st)

/-- The status of LoadROM (R215). -/
inductive LoadStatus where
  /-- `OK`. -/
  | ok
  /-- `CapacityError`: more than 3584 bytes were given and nothing was changed. It is a status of this operation and no
  fault of the core (R215, U19; log entry 16). -/
  | capacityError
  deriving DecidableEq, Repr

/-- LoadROM, as the pair of R215: the bytes are copied to 0x200 onward and nothing else changes; for a sequence of more
than 3584 bytes the state is unchanged and the status a capacity error. -/
def State.loadRom (s : State) (bytes : List Byte) : State × LoadStatus :=
  if Config.romMax < bytes.length then (s, .capacityError) else (s.writeBytes Config.progBase bytes, .ok)

/-- Reset: every component of the block as construction leaves it (R216, R240). FONT is the machine's parameter, and
the driver's and the entropy source's streams are outside the block: they go on (log entry 24). -/
def State.construct (s : State) : State :=
  { State.initial s.font with driver := s.driver, entropy := s.entropy, draws := s.draws }

end Sys2Proof.Machine
end

