-- ==== Sys2Proof/Machine/Driver.lean ====
section
/-! DEFINITION. The Cycle operation (40_fetch_decode.md R80, R89), the five operations of R217 applied one at a time,
the stream they come from, and the status a cycle returns (60_exceptions.md R200). -/

namespace Sys2Proof.Machine

/-- The instruction at the program counter: two cells are read, the high byte first, and decoded. Fetch cannot fault
(R81, R84). -/
def State.fetch (s : State) : Instr := decodeWord (s.readWord s.pc)

/-- Cycle: exactly one instruction is fetched, decoded and executed (R80, R88). -/
def cycle (s : State) : Host.Outcome State Fault Refusal := exec s.fetch s

/-- `k` cycles with no other operation between them, up to the first fault. -/
def runCycles : Nat → State → Host.Outcome State Fault Refusal
  | 0, s => .next s
  | k + 1, s =>
    match cycle s with
    | .next t => runCycles k t
    | .fault f => .fault f
    | .refused r => .refused r

/-- One operation applied to a state (R217). LoadROM's status is the second part of `State.loadRom`; whichever it is,
the driver goes on (R215). -/
def applyOperation (op : Operation) (s : State) : Host.Outcome State Fault Refusal :=
  match op with
  | .cycle => cycle s
  | .tick => .next s.tick
  | .setKey k pressed => .next (s.setKey k pressed)
  | .loadRom bytes => .next (s.loadRom bytes).1
  | .reset => .next s.construct

/-- The driver that issues cycles and nothing else. -/
def Driver.cycles : Driver := ⟨[], .loop []⟩

/-- The next operation of the stream (R217; log entry 14). -/
def Driver.head (d : Driver) : Operation :=
  match d.schedule, d.stream with
  | op :: _, _ => op
  | [], .loop ops => ops.headD .cycle
  | [], .free n => Config.operation n

/-- The stream after its next operation. A loop that comes to its end begins again. -/
def Driver.rest (d : Driver) : Driver :=
  match d.schedule, d.stream with
  | _ :: ops, stream => ⟨ops, stream⟩
  | [], .loop ops => ⟨ops.tail, .loop ops⟩
  | [], .free n => ⟨[], .free (n + 1)⟩

/-- The next operation of the driver. -/
def State.nextOperation (s : State) : Operation := s.driver.head

/-- The state with the next operation taken off the driver's stream. -/
def State.taken (s : State) : State := { s with driver := s.driver.rest }

/-- The state with a word placed where the next cycle fetches it, and cycles alone issued from now on: what LoadROM
followed by cycles does for the word at `pc` (R243; log entry 15). -/
def State.placeWord (s : State) (w : Word) : State :=
  { s.writeBytes s.pc (bytesOfWord w) with driver := Driver.cycles }

/-- The status of a cycle (R200). -/
inductive Status where
  /-- `OK`, code 0. -/
  | ok
  /-- `StackOverflow`, code 1. -/
  | stackOverflow
  /-- `StackUnderflow`, code 2. -/
  | stackUnderflow
  deriving DecidableEq, Repr

/-- The code of a status (R200; D7, log entry 8). -/
def statusCode : Status → Nat
  | .ok => 0
  | .stackOverflow => 1
  | .stackUnderflow => 2

/-- `Cycle(S)` as R89 has it: the state after the cycle and its status, the input state when the cycle faults (R87,
R204). `none` stands for the outcome no cycle has, a refusal. -/
def cycleReport (s : State) : Option (State × Status) :=
  match cycle s with
  | .next t => some (t, .ok)
  | .fault .stackOverflow => some (s, .stackOverflow)
  | .fault .stackUnderflow => some (s, .stackUnderflow)
  | .refused _ => none

end Sys2Proof.Machine
end

