-- ==== Sys2Proof/Machine/Step.lean ====
section
/-! DEFINITION. One step of the machine: the next operation of the driver's stream is applied (60_exceptions.md R217);
and the placing of an instruction where the next step runs it. -/

namespace Sys2Proof.Machine

/-- One step: the next operation of the driver's stream, on the state with it taken off. -/
def step (s : State) : Host.Outcome State Fault Refusal := applyOperation s.nextOperation s.taken

/-- The state with the word the opcode table numbers `w` where the next step fetches its instruction. Every
instruction is 16 bits, so the bits above `nbits` are 0 (log entry 15). -/
def State.withFetchWord (s : State) (nbits w : Nat) : State := s.placeWord (BitVec.ofNat 16 (w % 2 ^ nbits))

end Sys2Proof.Machine
end

