-- ==== Sys2Proof/Machine/Views.lean ====
section
/-! DEFINITION. The read-only views of the block (60_exceptions.md R219 to R221, 40_fetch_decode.md R90). They are
outputs, functions of the state, and no step reads one. -/

namespace Sys2Proof.Machine

/-- What introspection exposes: V0 to VF, I, pc and the stack pointer, and nothing else (R220). -/
structure Introspection where
  /-- V0 to VF. -/
  v : Vector Byte 16
  /-- The index register. -/
  idx : Addr
  /-- The program counter. -/
  pc : Addr
  /-- The stack pointer. -/
  sp : Fin 17
  deriving DecidableEq, Repr

/-- Introspection (R220). -/
def State.introspect (s : State) : Introspection := ⟨s.v, s.idx, s.pc, s.sp⟩

/-- The display snapshot: the 32 by 64 bit matrix as it stands (R219, R146). -/
def State.snapshot (s : State) : Display := s.disp

/-- The diagnostic trace of the next cycle: the word it fetches and its address (R90). -/
def State.trace (s : State) : Word × Addr := (s.readWord s.pc, s.pc)

/-- Whether an instruction is an unrecognised word (R71 (b)). -/
def isUnrecognised : Instr → Bool
  | .unrecognised0 _ | .unrecognised8 _ _ _ | .unrecognisedE _ _ | .unrecognisedF _ _ => true
  | _ => false

/-- The unknown-opcode diagnostic of the next cycle, with the word and its address (R221; D13, log entry 20). -/
def State.unknownOpcode (s : State) : Option (Word × Addr) :=
  if isUnrecognised s.fetch then some s.trace else none

end Sys2Proof.Machine
end

