-- ==== Sys2Proof/Safety.lean ====
section
/-! DEFINITION. What counts as a safe run and as its end, in the terms the statements use: the canonical form of
memory, the stop at a fault, the states from which further cycles alone change nothing, and the machine with no program
(60_exceptions.md R208, R225; 70_reset_and_hazards.md R242; log entry 26). -/

namespace Sys2Proof.Machine

/-- The invariant of the machine: memory is in its canonical form. Every other field is legal at every value its type
has (R26). -/
abbrev State.Inv (s : State) : Prop := Memory.wf s.font s.mem

/-- The next cycle faults: a bad outcome, never a final state (R208). -/
def State.Stuck (s : State) : Prop := ∃ f, cycle s = .fault f

/-- The word at `pc` is the sentinel (R225 (a)). -/
def State.AtSentinel (s : State) : Prop := s.readWord s.pc = 0x0000#16

/-- The word at `pc` is a `JP` to itself (the first case of R225 (b)). -/
def State.AtSelfJump (s : State) : Prop := s.fetch = .jp s.pc

/-- "The core is waiting for a key": the word at `pc` has category 0xF and low byte 0x0A, and all 16 key flags are 0
(R30, R225 (c)). -/
def State.AwaitsKey (s : State) : Prop :=
  Word.cat (s.readWord s.pc) = 0xF#4 ∧ Word.kk (s.readWord s.pc) = 0x0A#8 ∧ ∀ k : Reg, s.key k = false

/-- The two states are the same state of the block: they differ at most in the entropy source, which lies outside it
(R214). -/
def State.SameBlock (s t : State) : Prop := t = { s with entropy := t.entropy, draws := t.draws }

/-- Whatever the entropy source supplies, some number of cycles returns to the identical state. -/
def State.Recurs (s : State) : Prop :=
  ∀ (entropy : List Byte) (draws : Nat), ∃ k t, 0 < k ∧
    runCycles k { s with entropy := entropy, draws := draws } = .next t ∧ s.SameBlock t

/-- R225 (b) whole: a `JP` to itself "or any other cycle of instructions that returns to an identical state". The wait for
a key is R225's own case (c). -/
def State.AtLoop (s : State) : Prop := s.Recurs ∧ ¬ s.AwaitsKey

/-- The end of a run as R225 recommends it: its cases (a) and (b). -/
def State.Ended (s : State) : Prop := s.AtSentinel ∨ s.AtLoop

/-- The end of a run in the narrower words of decision D17: the word at `pc` is 0x0000, or is `JP` to itself. -/
def State.EndedByWord (s : State) : Prop := s.AtSentinel ∨ s.AtSelfJump

/-- No program: `pc` is where reset leaves it and the two cells there hold 0x00 (R242). -/
def State.NoProgram (s : State) : Prop :=
  s.pc = 0x200#12 ∧ s.readByte 0x200#12 = 0x00#8 ∧ s.readByte 0x201#12 = 0x00#8

end Sys2Proof.Machine
end

