-- ==== Sys2Proof/Certificates/Slice0/Obligations.lean ====
section
/-! DEFINITION. The statements for the provers, one `def Obligations.<Name> : Prop` each, and before them the words they
are written in. A docstring that names a decision D<n> or a log entry says which clause is a choice and not the source's
own rule. -/

namespace Sys2Proof.Claims
open Sys2Proof.Machine

/-- The outcome is a next state, and `p` holds of it. -/
def Completes (o : Host.Outcome State Fault Refusal) (p : State → Prop) : Prop := ∃ t, o = .next t ∧ p t

/-- Every byte of memory reads as before. -/
def SameBytes (s t : State) : Prop := ∀ a, t.readByte a = s.readByte a

/-- The frame of an instruction that writes general registers: every other component but `pc`, and every byte of
memory, is unchanged. -/
def OnlyRegs (s t : State) : Prop := t = { s with v := t.v, pc := t.pc } ∧ SameBytes s t

/-- The frame of an instruction that writes one general register. -/
def OnlyReg (s t : State) (x : Reg) : Prop := (∀ r, r ≠ x → t.reg r = s.reg r) ∧ OnlyRegs s t

/-- The frame of an instruction that stores to the addresses `stored`: every component but memory and `pc`, and every
other byte of memory, is unchanged. -/
def OnlyStores (s t : State) (stored : Addr → Prop) : Prop :=
  t = { s with mem := t.mem, pc := t.pc } ∧ ∀ a, ¬ stored a → t.readByte a = s.readByte a

/-- An instruction that writes `result` to VX and `flag` to VF, VF last, and nothing else but `pc` (R15). -/
def WritesWithFlag (o : Host.Outcome State Fault Refusal) (s : State) (x : Reg) (result flag : Nat) : Prop :=
  Completes o fun t =>
    (x ≠ 15 → (t.reg x).toNat = result) ∧ (t.reg 15).toNat = flag ∧
    (∀ r, r ≠ x → r ≠ 15 → t.reg r = s.reg r) ∧ OnlyRegs s t

/-- A program counter advanced by `k`, modulo 4096 (D5). -/
def pcPlus (s : State) (k : Nat) : Addr := BitVec.ofNat 12 ((s.pc.toNat + k) % 4096)

/-- The address `I + k`, modulo 4096 (R44, D4). -/
def idxPlus (s : State) (k : Nat) : Addr := BitVec.ofNat 12 ((s.idx.toNat + k) % 4096)

/-- A register field in a word that is written out. -/
def field (x : Reg) : BitVec 4 := BitVec.ofFin x

/-- The 39 rows of spec/opcode_table.json in the order of their key `order`: match and mask (R70). -/
def opcodeRows : List (Word × Word) :=
  [(0x0000, 0xFFFF), (0x00E0, 0xFFFF), (0x00EE, 0xFFFF), (0x1000, 0xF000), (0x2000, 0xF000), (0x3000, 0xF000),
   (0x4000, 0xF000), (0x5000, 0xF000), (0x6000, 0xF000), (0x7000, 0xF000)] ++
  [(0x8000, 0xF00F), (0x8001, 0xF00F), (0x8002, 0xF00F), (0x8003, 0xF00F), (0x8004, 0xF00F), (0x8005, 0xF00F),
   (0x8006, 0xF00F), (0x8007, 0xF00F), (0x800E, 0xF00F), (0x9000, 0xF000)] ++
  [(0xA000, 0xF000), (0xB000, 0xF000), (0xC000, 0xF000), (0xD000, 0xF000), (0xE09E, 0xF0FF), (0xE0A1, 0xF0FF),
   (0xF007, 0xF0FF), (0xF00A, 0xF0FF), (0xF015, 0xF0FF), (0xF018, 0xF0FF)] ++
  [(0xF01E, 0xF0FF), (0xF029, 0xF0FF), (0xF033, 0xF0FF), (0xF055, 0xF0FF), (0xF065, 0xF0FF), (0x0000, 0xF000),
   (0x8000, 0xF000), (0xE000, 0xF000), (0xF000, 0xF000)]

/-- The place in `opcodeRows` of the row a constructor stands for, counted from 0. -/
def rowOf : Instr → Nat
  | .sentinel => 0 | .cls => 1 | .ret => 2 | .jp _ => 3 | .call _ => 4 | .seImm _ _ => 5
  | .sneImm _ _ => 6 | .seReg _ _ _ => 7 | .ldImm _ _ => 8 | .addImm _ _ => 9
  | .ldReg _ _ => 10 | .orReg _ _ => 11 | .andReg _ _ => 12 | .xorReg _ _ => 13 | .addReg _ _ => 14 | .sub _ _ => 15
  | .shr _ _ => 16 | .subn _ _ => 17 | .shl _ _ => 18 | .sneReg _ _ _ => 19
  | .ldI _ => 20 | .jpV0 _ => 21 | .rnd _ _ => 22 | .drw _ _ _ => 23 | .skp _ => 24 | .sknp _ => 25
  | .ldVxDt _ => 26 | .ldVxK _ => 27 | .ldDtVx _ => 28 | .ldStVx _ => 29
  | .addI _ => 30 | .ldF _ => 31 | .ldB _ => 32 | .ldMemVx _ => 33 | .ldVxMem _ => 34 | .unrecognised0 _ => 35
  | .unrecognised8 _ _ _ => 36 | .unrecognisedE _ _ => 37 | .unrecognisedF _ _ => 38

/-- The words R71 (b) lists: a category with a sub-table, and a key with no entry in it. -/
def NoTableEntry (w : Word) : Prop :=
  (w.toNat / 4096 = 0x0 ∧ w.toNat ∉ [0x0000, 0x00E0, 0x00EE]) ∨
  (w.toNat / 4096 = 0x8 ∧ w.toNat % 16 ∈ [0x8, 0x9, 0xA, 0xB, 0xC, 0xD, 0xF]) ∨
  (w.toNat / 4096 = 0xE ∧ w.toNat % 256 ∉ [0x9E, 0xA1]) ∨
  (w.toNat / 4096 = 0xF ∧ w.toNat % 256 ∉ [0x07, 0x0A, 0x15, 0x18, 0x1E, 0x29, 0x33, 0x55, 0x65])

/-- The program counter after a cycle that did not fault: the table of R86, and R82 for the sentinel. -/
def finalPc (i : Instr) (s : State) : Nat :=
  let pc0 := s.pc.toNat
  let next := (pc0 + 2) % 4096
  let skip (c : Prop) [Decidable c] : Nat := if c then (pc0 + 4) % 4096 else next
  match i with
  | .sentinel => pc0
  | .jp nnn => nnn.toNat
  | .call nnn => nnn.toNat
  | .jpV0 nnn => (nnn.toNat + (s.reg 0).toNat) % 4096
  | .ret => ((s.stack[s.sp.val - 1]?).getD 0).toNat
  | .seImm x kk => skip (s.reg x = kk)
  | .sneImm x kk => skip (s.reg x ≠ kk)
  | .seReg x y _ => skip (s.reg x = s.reg y)
  | .sneReg x y _ => skip (s.reg x ≠ s.reg y)
  | .skp x => skip (s.keys[(s.reg x).toNat % 16]? = some true)
  | .sknp x => skip (s.keys[(s.reg x).toNat % 16]? = some false)
  | .ldVxK _ => if ∃ k : Reg, s.key k = true then next else pc0
  | _ => next

/-- Pixel `(r, c)` lies under a 1 bit of the sprite that `DRW Vx,Vy,n` draws in state `s` (R142): bit 7 - j of the byte
at I + k lands on row (V[Y] mod 32 + k) mod 32 and column (V[X] mod 64 + j) mod 64. -/
def Covers (s : State) (x y : Reg) (n : BitVec 4) (r : Fin 32) (c : Fin 64) : Prop :=
  ∃ k j : Nat, k < n.toNat ∧ j < 8 ∧ ((s.reg y).toNat % 32 + k) % 32 = r.val ∧
    ((s.reg x).toNat % 64 + j) % 64 = c.val ∧ (s.readByte (idxPlus s k)).getLsbD (7 - j) = true

/-- The instructions that write VF as a side effect (R14). -/
def writesFlag : Instr → Bool
  | .addReg _ _ | .sub _ _ | .shr _ _ | .subn _ _ | .shl _ _ | .drw _ _ _ => true
  | _ => false

/-- The general register named as the destination X, where there is one; for a register load the last register
loaded. -/
def destination : Instr → Option Reg
  | .ldImm x _ | .addImm x _ | .ldReg x _ | .orReg x _ | .andReg x _ | .xorReg x _ | .addReg x _ | .sub x _
  | .shr x _ | .subn x _ | .shl x _ | .rnd x _ | .ldVxDt x | .ldVxK x | .ldVxMem x => some x
  | _ => none

/-- The writers of memory (R10). -/
def writesMem : Instr → Bool
  | .ldB _ | .ldMemVx _ => true
  | _ => false

/-- The writers of I (R10, R17). -/
def writesIdx : Instr → Bool
  | .ldI _ | .addI _ | .ldF _ => true
  | _ => false

/-- The writers of the stack pointer (R10, R21). -/
def writesSp : Instr → Bool
  | .call _ | .ret => true
  | _ => false

/-- The writers of the stack cells (R10, R21). -/
def writesStack : Instr → Bool
  | .call _ => true
  | _ => false

/-- The writer of DT (R10, R23). -/
def writesDt : Instr → Bool
  | .ldDtVx _ => true
  | _ => false

/-- The writer of ST (R10, R23). -/
def writesSt : Instr → Bool
  | .ldStVx _ => true
  | _ => false

/-- The writers of the display (R10, R25). -/
def writesDisp : Instr → Bool
  | .cls | .drw _ _ _ => true
  | _ => false

/-- The one instruction that draws from the entropy source (R132). -/
def drawsEntropy : Instr → Bool
  | .rnd _ _ => true
  | _ => false

/-- The reset values of R33, for a FONT. The key flags are the spec's decision D10 (log entry 11). -/
def HasResetValues (font : Vector Byte Config.fontLen) (t : State) : Prop :=
  (∀ a : Addr, (h : a.toNat < 80) → t.readByte a = font[a.toNat]) ∧
  (∀ a : Addr, 80 ≤ a.toNat → t.readByte a = 0x00#8) ∧
  (∀ x, t.reg x = 0x00#8) ∧ t.idx = 0x000#12 ∧ t.pc = 0x200#12 ∧ t.sp = 0 ∧ t.dt = 0x00#8 ∧ t.st = 0x00#8 ∧
  (∀ k, t.key k = false) ∧ ∀ r c, t.pixel r c = false

/-- Two states that differ at most in stack cells that hold no return address (R21, R22). -/
def SameButDeadCells (s t : State) : Prop :=
  t = { s with stack := t.stack } ∧ ∀ k, k < s.sp.val → t.stack[k]? = s.stack[k]?

/-- Two outcomes of one kind: next states related by `r`, or equal stops. -/
def SameOutcome (r : State → State → Prop) : (o p : Host.Outcome State Fault Refusal) → Prop
  | .next a, .next b => r a b
  | .fault f, .fault g => f = g
  | .refused f, .refused g => f = g
  | _, _ => False

end Sys2Proof.Claims

open Sys2Proof Sys2Proof.Machine Sys2Proof.Claims

/-! Encoding (30_encoding.md). The opcode numbers are decision D1 (log entry 3). -/

/-- Every well-formed instruction is read back from its word, with every operand at every value (R61 to R69, R75). -/
def Obligations.DecodeEncodeRoundTrip : Prop := ∀ i : Instr, WellFormed i = true → decodeWord (encode i) = i

/-- Every one of the 65536 words has exactly one instruction, a well-formed one, whose word it is: no word is illegal
(R71, R75). R72 and R75 ignore N of 5XYN and 9XYN and Y of 8XY6 and 8XYE; that these bits are kept as operands, so that
the same word comes back, is the model's choice (log entry 22). -/
def Obligations.EncodeDecodeRoundTrip : Prop :=
  ∀ w : Word, WellFormed (decodeWord w) = true ∧ encode (decodeWord w) = w

/-- "A decoder built from `opcode_table.json` tests the rows in the order given there ... so the first matching row
decides" (R70). -/
def Obligations.DecodeSelectsFirstMatchingRow : Prop :=
  ∀ w : Word, opcodeRows.findIdx (fun row => w &&& row.2 == row.1) = rowOf (decodeWord w)

/-- Words of the spec's own examples, one or more of each family, decode to the instruction they stand for. -/
def Obligations.SpecWordsDecode : Prop :=
  decodeWord 0x0000 = .sentinel ∧ decodeWord 0x00E0 = .cls ∧ decodeWord 0x00EE = .ret ∧
  decodeWord 0x0123 = .unrecognised0 0x123 ∧ decodeWord 0x1ABC = .jp 0xABC ∧ decodeWord 0x2300 = .call 0x300 ∧
  decodeWord 0x3A05 = .seImm 0xA 0x05 ∧ decodeWord 0x5127 = .seReg 1 2 7 ∧ decodeWord 0x6A05 = .ldImm 0xA 0x05 ∧
  decodeWord 0x8014 = .addReg 0 1 ∧ decodeWord 0x8015 = .sub 0 1 ∧ decodeWord 0x8128 = .unrecognised8 1 2 8 ∧
  decodeWord 0xA300 = .ldI 0x300 ∧ decodeWord 0xC30F = .rnd 3 0x0F ∧ decodeWord 0xD012 = .drw 0 1 2 ∧
  decodeWord 0xE19E = .skp 1 ∧ decodeWord 0xF30A = .ldVxK 3 ∧ decodeWord 0xF265 = .ldVxMem 2 ∧
  decodeWord 0xF1FF = .unrecognisedF 1 0xFF

/-! The cycle (40_fetch_decode.md). -/

/-- A step runs the instruction that the two bytes at `pc` and `pc + 1` decode to, the high byte first (R43, R80, R81,
R84): whenever the driver's next operation is a Cycle, on the state with that operation taken off the driver's stream, and
when it issues cycles alone, on the state as it is (log entry 14). That the second byte wraps at 0xFFF is decision D4 (log
entry 5). -/
def Obligations.StepRunsTheFetchedInstruction : Prop :=
  ∀ (s : State) (i : Instr), decodeBytes [s.readByte s.pc, s.readByte (pcPlus s 1)] = .ok (i, []) →
    (s.nextOperation = .cycle → step s = exec i s.taken) ∧ (s.driver = Driver.cycles → step s = exec i s)

/-- A cycle whose word is 0x0000 changes nothing, `pc` included, with status OK, and so does every cycle after it (R82).
The two cells of the word are those of R81; that the second wraps where `pc` is 0xFFF is decision D4 (log entry 5). The
run is one in which the driver issues cycles alone (log entry 14). -/
def Obligations.SentinelHoldsForever : Prop :=
  (∀ s : State, exec .sentinel s = .next s) ∧
  ∀ s : State, s.readByte s.pc = 0x00#8 → s.readByte (pcPlus s 1) = 0x00#8 →
    cycleReport s = some (s, .ok) ∧
    (s.driver = Driver.cycles → ∀ k, Host.Core.run Sys2Proof.core k s = Host.Outcome.next s)

/-- The whole effect of an unrecognised word is `pc <- pc2` (R85), for every word R71 (b) lists and for each of the four
catch-all rows. Which keys have an entry is decision D1 (log entry 3), the wrap of `pc` decision D5 (log entry 6). -/
def Obligations.UnrecognisedWordsOnlyAdvance : Prop :=
  (∀ s : State, NoTableEntry (s.readWord s.pc) → cycleReport s = some ({ s with pc := pcPlus s 2 }, .ok)) ∧
  ∀ (s : State) (nnn : Addr) (x y : Reg) (n : BitVec 4) (kk : Byte),
    exec (.unrecognised0 nnn) s = .next { s with pc := pcPlus s 2 } ∧
    exec (.unrecognised8 x y n) s = .next { s with pc := pcPlus s 2 } ∧
    exec (.unrecognisedE x kk) s = .next { s with pc := pcPlus s 2 } ∧
    exec (.unrecognisedF x kk) s = .next { s with pc := pcPlus s 2 }

/-- The table of R86 (and R19, R82): the program counter after every instruction that does not fault. The reduction
modulo 4096 is decision D5 (log entry 6), the masking of a key index decision D6 (log entry 7). -/
def Obligations.FinalProgramCounter : Prop :=
  ∀ (i : Instr) (s t : State), exec i s = .next t → t.pc.toNat = finalPc i s

/-- Every instruction answers a next state but for the two stack faults: "The two stack faults are the complete list"
(R203). Nothing is refused. That an access or a `pc` past 0xFFF goes on is decisions D4 and D5 (log entries 5 and 6), and
that `SKP` and `SKNP` complete with V[X] above 15 is decision D6 (log entry 7). -/
def Obligations.EveryInstructionCompletes : Prop :=
  ∀ (i : Instr) (s : State), ¬ ((∃ nnn, i = .call nnn) ∧ s.sp.val = 16) → ¬ (i = .ret ∧ s.sp.val = 0) →
    ∃ t, exec i s = .next t

/-- A cycle returns a state and one of the three statuses (R80, R200), and a status other than OK leaves the pre-cycle
state in every component, and the next cycle returns the same (R204, R208). -/
def Obligations.FaultLeavesStateAndRepeats : Prop :=
  (∀ s : State, (∃ r, cycleReport s = some r)) ∧
  ∀ (s u : State) (f : Status), cycleReport s = some (u, f) → f ≠ .ok → u = s ∧ cycleReport u = some (u, f)

/-! Control flow (41_control_flow.md). -/

/-- `JP nnn` sets `pc` to NNN and `JP V0,nnn` to (NNN + V0) mod 4096, and nothing else changes (R101, R102). The
reduction is decision D5 (log entry 6). -/
def Obligations.JumpsSetThePc : Prop :=
  ∀ (s : State) (nnn : Addr),
    Completes (exec (.jp nnn) s) (fun t => t.pc = nnn ∧ t = { s with pc := t.pc } ∧ SameBytes s t) ∧
    Completes (exec (.jpV0 nnn) s) (fun t => t.pc.toNat = (nnn.toNat + (s.reg 0).toNat) % 4096 ∧
      t = { s with pc := t.pc } ∧ SameBytes s t)

/-- `CALL nnn` below a full stack pushes the address after it, counts it and jumps (R103); the other 15 cells and
everything else are unchanged. The reduction of the address pushed is decision D5 (log entry 6). -/
def Obligations.CallPushesTheReturnAddress : Prop :=
  ∀ (s : State) (nnn : Addr), s.sp.val < 16 → Completes (exec (.call nnn) s) fun t =>
    t.stack[s.sp.val]? = some (pcPlus s 2) ∧ (∀ k, k ≠ s.sp.val → t.stack[k]? = s.stack[k]?) ∧
    t.sp.val = s.sp.val + 1 ∧ t.pc = nnn ∧ t = { s with stack := t.stack, sp := t.sp, pc := t.pc } ∧ SameBytes s t

/-- R201: StackOverflow is raised by `CALL` when the pre-cycle `sp` is 16 and by nothing else, and the state after the
cycle is the pre-cycle state. -/
def Obligations.CallOnFullStackOverflows : Prop :=
  (∀ (i : Instr) (s : State), exec i s = .fault .stackOverflow ↔ (∃ nnn, i = .call nnn) ∧ s.sp.val = 16) ∧
  ∀ (s : State) (nnn : Addr), decodeWord (s.readWord s.pc) = .call nnn → s.sp.val = 16 →
    cycleReport s = some (s, .stackOverflow)

/-- R202: StackUnderflow is raised by `RET` when the pre-cycle `sp` is 0 and by nothing else, and the state after the
cycle is the pre-cycle state. -/
def Obligations.ReturnOnEmptyStackUnderflows : Prop :=
  (∀ (i : Instr) (s : State), exec i s = .fault .stackUnderflow ↔ i = .ret ∧ s.sp.val = 0) ∧
  ∀ s : State, decodeWord (s.readWord s.pc) = .ret → s.sp.val = 0 → cycleReport s = some (s, .stackUnderflow)

/-- `RET` on a stack that is not empty: `sp <- sp - 1; pc <- stack[sp]`, and nothing else changes (R104). That the popped
cell keeps its content is the model's choice and unobservable (R22, log entry 12). -/
def Obligations.ReturnPopsTheLastAddress : Prop :=
  ∀ s : State, 0 < s.sp.val → Completes (exec .ret s) fun t =>
    t.sp.val + 1 = s.sp.val ∧ s.stack[t.sp.val]? = some t.pc ∧ t = { s with sp := t.sp, pc := t.pc } ∧ SameBytes s t

/-- "Sequence `CALL 0x300` then `RET`: PC ends at (original PC + 2), stack pointer returns to its original value" (R103),
for every target and wherever the subroutine's `RET` stands; only the cell written by the call has changed. The reduction
of the address is decision D5 (log entry 6). -/
def Obligations.CallThenReturnResumes : Prop :=
  ∀ (s : State) (nnn q : Addr), s.sp.val < 16 → ∃ t u, exec (.call nnn) s = .next t ∧
    exec .ret { t with pc := q } = .next u ∧ u.pc = pcPlus s 2 ∧ u = { s with pc := u.pc, stack := u.stack } ∧
    ∀ k, k ≠ s.sp.val → u.stack[k]? = s.stack[k]?

/-- The four conditional skips: `pc` ends at pc0 + 4 when the condition holds and at pc0 + 2 when not, and nothing else
changes (R105 to R108); the low nibble of the register forms is ignored (R72). The reduction is decision D5
(log entry 6). -/
def Obligations.SkipsCompareRegisters : Prop :=
  ∀ (s : State) (x y : Reg) (kk : Byte) (n : BitVec 4),
    exec (.seImm x kk) s = .next { s with pc := pcPlus s (if (s.reg x).toNat = kk.toNat then 4 else 2) } ∧
    exec (.sneImm x kk) s = .next { s with pc := pcPlus s (if (s.reg x).toNat = kk.toNat then 2 else 4) } ∧
    exec (.seReg x y n) s = .next { s with pc := pcPlus s (if (s.reg x).toNat = (s.reg y).toNat then 4 else 2) } ∧
    exec (.sneReg x y n) s = .next { s with pc := pcPlus s (if (s.reg x).toNat = (s.reg y).toNat then 2 else 4) }

/-! ALU and registers (42_alu.md). -/

/-- R121: `LD Vx,kk`, its encoding 6XKK, its effect `V[X] <- KK`, and that nothing else changes but `pc`, which is 2
further. (At the top of memory, where `pc` wraps by decision D5, nothing is said of it here.) -/
def Obligations.LoadImmediateWritesOneRegister : Prop :=
  ∀ (x : Reg) (kk : Byte), decodeWord (0x6#4 ++ field x ++ kk) = .ldImm x kk ∧
    ∀ s : State, Completes (exec (.ldImm x kk) s) fun t =>
      t.reg x = kk ∧ OnlyReg s t x ∧ (s.pc.toNat + 2 < 4096 → t.pc.toNat = s.pc.toNat + 2)

/-- `ADD Vx,kk`: the sum modulo 256, with no carry recorded anywhere (R122, R133 (b)). -/
def Obligations.AddImmediateWrapsWithoutFlag : Prop :=
  ∀ (s : State) (x : Reg) (kk : Byte), Completes (exec (.addImm x kk) s) fun t =>
    (t.reg x).toNat = ((s.reg x).toNat + kk.toNat) % 256 ∧ OnlyReg s t x

/-- `LD`, `OR`, `AND`, `XOR` between registers: bit by bit, "direct assignment, no flag side effects" (R123 to
R126). -/
def Obligations.LogicalOperationsLeaveTheFlag : Prop :=
  ∀ (s : State) (x y : Reg),
    Completes (exec (.ldReg x y) s) (fun t => t.reg x = s.reg y ∧ OnlyReg s t x) ∧
    Completes (exec (.orReg x y) s) (fun t =>
      (∀ j < 8, (t.reg x).getLsbD j = ((s.reg x).getLsbD j || (s.reg y).getLsbD j)) ∧ OnlyReg s t x) ∧
    Completes (exec (.andReg x y) s) (fun t =>
      (∀ j < 8, (t.reg x).getLsbD j = ((s.reg x).getLsbD j && (s.reg y).getLsbD j)) ∧ OnlyReg s t x) ∧
    Completes (exec (.xorReg x y) s) (fun t =>
      (∀ j < 8, (t.reg x).getLsbD j = ((s.reg x).getLsbD j != (s.reg y).getLsbD j)) ∧ OnlyReg s t x)

/-- R134, the table of flag outcomes: with a = V[X] and b = V[Y] before the instruction, VX and VF after `ADD`, `SUB`,
`SUBN`, `SHR` and `SHL`; with X = 0xF, VF ends with the flag, computed from the old VF as a. -/
def Obligations.FlagOutcomeTable : Prop :=
  ∀ (s : State) (x y : Reg), let a := (s.reg x).toNat; let b := (s.reg y).toNat
    WritesWithFlag (exec (.addReg x y) s) s x ((a + b) % 256) (if a + b ≥ 256 then 1 else 0) ∧
    WritesWithFlag (exec (.sub x y) s) s x ((a + 256 - b) % 256) (if a ≥ b then 1 else 0) ∧
    WritesWithFlag (exec (.subn x y) s) s x ((b + 256 - a) % 256) (if b ≥ a then 1 else 0) ∧
    WritesWithFlag (exec (.shr x y) s) s x (a / 2) (a % 2) ∧
    WritesWithFlag (exec (.shl x y) s) s x ((2 * a) % 256) (a / 128)

/-- The result and the flag together are the exact value: V[X]' + 256 VF' = a + b for `ADD`, V[X]' = a - b + 256 (1 -
VF') for `SUB`, V[X]' = b - a + 256 (1 - VF') for `SUBN`, 2 V[X]' + VF' = a for `SHR`, V[X]' + 256 VF' = 2 a for `SHL`
(95_test_vectors.md, part 2.3, with X not 0xF; from R127 to R131). -/
def Obligations.ResultAndFlagGiveTheExactValue : Prop :=
  ∀ (s : State) (x y : Reg), x ≠ 15 → let a := (s.reg x).toNat; let b := (s.reg y).toNat
    Completes (exec (.addReg x y) s) (fun t => (t.reg x).toNat + 256 * (t.reg 15).toNat = a + b) ∧
    Completes (exec (.sub x y) s) (fun t => (t.reg x).toNat + b + 256 * (t.reg 15).toNat = a + 256) ∧
    Completes (exec (.subn x y) s) (fun t => (t.reg x).toNat + a + 256 * (t.reg 15).toNat = b + 256) ∧
    Completes (exec (.shr x y) s) (fun t => 2 * (t.reg x).toNat + (t.reg 15).toNat = a) ∧
    Completes (exec (.shl x y) s) (fun t => (t.reg x).toNat + 256 * (t.reg 15).toNat = 2 * a)

/-- Six instructions write VF as a side effect, always with 0x00 or 0x01, and no other instruction changes VF unless VF is
its destination (R14, R15). -/
def Obligations.SixInstructionsWriteTheFlag : Prop :=
  ∀ (i : Instr) (s t : State), exec i s = .next t →
    (writesFlag i = true → t.reg 15 = 0x00#8 ∨ t.reg 15 = 0x01#8) ∧
    (writesFlag i = false → destination i ≠ some 15 → t.reg 15 = s.reg 15)

/-- `RND Vx,kk`: `V[X] <- rand AND KK`, one draw and nothing else (R132, R214). The model holds the entropy source as the
bytes injected and not yet drawn, and past them as a free value of the number of the draw (log entry 13); the statement
holds for every byte injected and whatever the free value is. -/
def Obligations.RandomByteAndImmediate : Prop :=
  ∀ (s : State) (x : Reg) (kk : Byte), Completes (exec (.rnd x kk) s) fun t =>
    (∀ b rest, s.entropy = b :: rest → t.reg x = b &&& kk ∧ t.entropy = rest) ∧
    (s.entropy = [] → t.reg x = Config.randByte s.draws &&& kk ∧ t.entropy = []) ∧
    t.draws = s.draws + 1 ∧ (kk = 0x00#8 → t.reg x = 0x00#8) ∧ (∀ r, r ≠ x → t.reg r = s.reg r) ∧
    t = { s with v := t.v, pc := t.pc, entropy := t.entropy, draws := t.draws } ∧ SameBytes s t

/-! The display (43_display.md). -/

/-- R141: `CLS`, its word 0x00E0, sets every pixel to 0; VF and everything else but `pc` is unchanged. -/
def Obligations.ClearErasesEveryPixel : Prop :=
  decodeWord 0x00E0#16 = .cls ∧ ∀ s : State, Completes (exec .cls s) fun t =>
    (∀ r c, t.pixel r c = false) ∧ t = { s with disp := t.disp, pc := t.pc } ∧ SameBytes s t

/-- The loop of R143 draws what R144 says: "The new display is the old display XOR the wrapped sprite mask", and the
collision "depends only on the display of before the instruction": VF is 1 exactly when a 1 bit of the sprite lies on a
pixel that was 1. Every other register, memory and the rest are unchanged, also for n = 0 and for X or Y = 0xF. That the
origin is read before VF is written is decision D8 (log entry 9), the wrap of the sprite's addresses decision D4 (log
entry 5), I unchanged decision D9 (log entry 10), X as the column's register G6 (log entry 18). -/
def Obligations.DrawXorsTheSpriteMask : Prop :=
  ∀ (s : State) (x y : Reg) (n : BitVec 4), Completes (exec (.drw x y n) s) fun t =>
    (∀ r c, (Covers s x y n r c → t.pixel r c = !s.pixel r c) ∧ (¬ Covers s x y n r c → t.pixel r c = s.pixel r c)) ∧
    ((∃ r c, Covers s x y n r c ∧ s.pixel r c = true) → t.reg 15 = 0x01#8) ∧
    ((¬ ∃ r c, Covers s x y n r c ∧ s.pixel r c = true) → t.reg 15 = 0x00#8) ∧
    (∀ r, r ≠ 15 → t.reg r = s.reg r) ∧ t = { s with disp := t.disp, v := t.v, pc := t.pc } ∧ SameBytes s t

/-- Drawing the same sprite at the same origin twice restores the display (R143 (g), R144 (b)); on a clear display the
first draw gives VF = 0 and, if the sprite has a 1 bit, the second gives VF = 1, as in the source's example. (R143 (g)
says the last of every display; its own pseudocode gives it only where the first draw left a pixel lit, log entry 19.)
With X or Y = 0xF the first draw may change the origin by writing VF; the premises keep it the same, and say nothing of the
other registers. The second draw reads the same sprite because I is unchanged, decision D9 (log entry 10); the sprite's
addresses wrap by decision D4 (log entry 5), and the origin is read before VF is written by decision D8 (log entry 9). -/
def Obligations.DrawTwiceRestoresTheDisplay : Prop :=
  ∀ (s : State) (x y : Reg) (n : BitVec 4),
    ∃ t u, exec (.drw x y n) s = .next t ∧ exec (.drw x y n) t = .next u ∧
      ((x = 15 → (t.reg 15).toNat % 64 = (s.reg 15).toNat % 64) →
        (y = 15 → (t.reg 15).toNat % 32 = (s.reg 15).toNat % 32) →
        u.disp = s.disp ∧
          ((∀ r c, s.pixel r c = false) →
            t.reg 15 = 0x00#8 ∧ ((∃ r c, Covers s x y n r c) → u.reg 15 = 0x01#8)))

/-! Timers and keypad (44_timer_keypad.md). -/

/-- The three timer instructions: a timer is read or written whole, and nothing else changes but `pc` (R150 to R152). -/
def Obligations.TimerInstructionsMoveOneByte : Prop :=
  ∀ (s : State) (x : Reg),
    Completes (exec (.ldVxDt x) s) (fun t => t.reg x = s.dt ∧ OnlyReg s t x) ∧
    Completes (exec (.ldDtVx x) s) (fun t =>
      t.dt = s.reg x ∧ t = { s with dt := t.dt, pc := t.pc } ∧ SameBytes s t) ∧
    Completes (exec (.ldStVx x) s) (fun t =>
      t.st = s.reg x ∧ t = { s with st := t.st, pc := t.pc } ∧ SameBytes s t)

/-- `SKP` and `SKNP` skip on the key whose index is the low 4 bits of V[X], and change nothing but `pc` (R153, R154). The
masking is decision D6 (log entry 7), the wrap of `pc` decision D5 (log entry 6). -/
def Obligations.KeySkipsTestTheMaskedKey : Prop :=
  ∀ (s : State) (x k : Reg), (s.reg x).toNat % 16 = k.val →
    exec (.skp x) s = .next { s with pc := pcPlus s (if s.key k = true then 4 else 2) } ∧
    exec (.sknp x) s = .next { s with pc := pcPlus s (if s.key k = true then 2 else 4) }

/-- `LD Vx,K` (R155): with no key pressed the cycle changes nothing at all, `pc` included; with keys pressed the lowest
index is stored, and everything else but `pc` is unchanged. The wrap of `pc` is decision D5 (log entry 6). -/
def Obligations.WaitForKeyTakesTheLowestKey : Prop :=
  ∀ (s : State) (x : Reg),
    ((∀ k, s.key k = false) → exec (.ldVxK x) s = .next s) ∧
    ∀ k, s.key k = true → (∀ j, j < k → s.key j = false) → Completes (exec (.ldVxK x) s) fun t =>
      (t.reg x).toNat = k.val ∧ t.pc = pcPlus s 2 ∧ OnlyReg s t x

/-! Index, memory and BCD (45_memory_bcd.md). -/

/-- The three writers of I (R171 to R173, R17): NNN, (I + V[X]) mod 4096 with no flag, and 5 times the low nibble of V[X].
Nothing else changes but `pc`. `LD I,nnn` itself is decision D2 (log entry 4). -/
def Obligations.IndexInstructionsSetI : Prop :=
  ∀ (s : State) (x : Reg) (nnn : Addr),
    Completes (exec (.ldI nnn) s) (fun t => t.idx = nnn ∧ t = { s with idx := t.idx, pc := t.pc } ∧ SameBytes s t) ∧
    Completes (exec (.addI x) s) (fun t => t.idx.toNat = (s.idx.toNat + (s.reg x).toNat) % 4096 ∧
      t = { s with idx := t.idx, pc := t.pc } ∧ SameBytes s t) ∧
    Completes (exec (.ldF x) s) (fun t => t.idx.toNat = (s.reg x).toNat % 16 * 5 ∧
      t = { s with idx := t.idx, pc := t.pc } ∧ SameBytes s t)

/-- `LD B,Vx` (R174): the hundreds, tens and units digits at I, I + 1 and I + 2; every other byte of memory and everything
else but `pc` is unchanged, I included. The wrap of the addresses is decision D4 (log entry 5), I unchanged decision D9
(log entry 10). -/
def Obligations.BcdStoresThreeDigits : Prop :=
  ∀ (s : State) (x : Reg), Completes (exec (.ldB x) s) fun t =>
    (t.readByte (idxPlus s 0)).toNat = (s.reg x).toNat / 100 ∧
    (t.readByte (idxPlus s 1)).toNat = (s.reg x).toNat / 10 % 10 ∧
    (t.readByte (idxPlus s 2)).toNat = (s.reg x).toNat % 10 ∧
    OnlyStores s t fun a => ∃ k < 3, a = idxPlus s k

/-- `LD [I],Vx` (R176): `mem[I + k] <- V[k]` for k from 0 to X; every other byte of memory and everything else but `pc`
is unchanged, I included (R178). The wrap is decision D4 (log entry 5), I unchanged decision D9 (log entry 10). -/
def Obligations.RegisterDumpStoresEachRegister : Prop :=
  ∀ (s : State) (x : Reg), Completes (exec (.ldMemVx x) s) fun t =>
    (∀ k : Reg, k ≤ x → t.readByte (idxPlus s k.val) = s.reg k) ∧
    OnlyStores s t fun a => ∃ k : Reg, k ≤ x ∧ a = idxPlus s k.val

/-- `LD Vx,[I]` (R177): `V[k] <- mem[I + k]` for k from 0 to X; the registers above VX and everything else but `pc` are
unchanged, I and memory included (R178). The wrap is decision D4 (log entry 5), I unchanged decision D9 (log entry
10). -/
def Obligations.RegisterLoadReadsEachRegister : Prop :=
  ∀ (s : State) (x : Reg), Completes (exec (.ldVxMem x) s) fun t =>
    (∀ k : Reg, k ≤ x → t.reg k = s.readByte (idxPlus s k.val)) ∧ (∀ k : Reg, x < k → t.reg k = s.reg k) ∧
    OnlyRegs s t

/-- A register load after a register dump at the same I gives back every register dumped, whatever the registers were in
between (R176 to R178). -/
def Obligations.DumpThenLoadRestores : Prop :=
  ∀ (s : State) (x : Reg) (v : Vector Byte 16), ∃ t u, exec (.ldMemVx x) s = .next t ∧
    exec (.ldVxMem x) { t with v := v } = .next u ∧ (∀ k : Reg, k ≤ x → u.reg k = s.reg k) ∧
    ∀ k : Reg, x < k → u.reg k = v[k.val]

/-- A store made by one cycle is seen by the fetch of the next (R54): a dump of V0 and V1 onto the cells that follow the
instruction is what the next step executes, where both operations are Cycles (log entry 14). The wrap of the addresses is
decision D4 (log entry 5), that of `pc` decision D5 (log entry 6). -/
def Obligations.StoredWordIsFetchedNext : Prop :=
  ∀ (s : State) (x : Reg), s.nextOperation = .cycle → s.taken.nextOperation = .cycle →
    decodeWord (s.readWord s.pc) = .ldMemVx x → 1 ≤ x → s.idx = pcPlus s 2 →
    ∃ t, step s = .next t ∧ step t = exec (decodeWord (s.reg 0 ++ s.reg 1)) t.taken

/-! Whole-machine rules. -/

/-- The column "written by" of R10, for every instruction: memory changes only under `LD B,Vx` and `LD [I],Vx`, I under
three instructions (R17), the stack cells under `CALL`, `sp` under `CALL` and `RET`, DT under `LD DT,Vx` and ST under
`LD ST,Vx` (R23), the key flags under none (R24), the display under `CLS` and `DRW` (R25). The entropy source is drawn by
`RND` alone (R132), and no instruction touches FONT or the driver's stream (log entries 2, 13, 14). I unchanged is decision
D9 (log entry 10). That `RET` leaves the popped cell as it was is the model's choice, which R22 leaves open (log entry
12). -/
def Obligations.WritersOfEachComponent : Prop :=
  ∀ (i : Instr) (s t : State), exec i s = .next t →
    (writesMem i = false → SameBytes s t ∧ t.mem = s.mem) ∧ (writesIdx i = false → t.idx = s.idx) ∧
    (writesStack i = false → t.stack = s.stack) ∧ (writesSp i = false → t.sp = s.sp) ∧
    (writesDt i = false → t.dt = s.dt) ∧ (writesSt i = false → t.st = s.st) ∧ t.keys = s.keys ∧
    (writesDisp i = false → t.disp = s.disp) ∧
    (drawsEntropy i = false → t.entropy = s.entropy ∧ t.draws = s.draws) ∧ t.font = s.font ∧ t.driver = s.driver

/-- "No instruction reads `ST`" (R23): with another value in ST every instruction has the same outcome, but for ST, which
keeps that value; `LD ST,Vx`, which writes it, leaves the same ST too. -/
def Obligations.SoundTimerIsNeverRead : Prop :=
  ∀ (i : Instr) (s : State) (b : Byte),
    SameOutcome (fun t u => u = { t with st := u.st } ∧ (writesSt i = false → u.st = b) ∧
        (writesSt i = true → u.st = t.st))
      (exec i s) (exec i { s with st := b })

/-- The display has one reader among the instructions, `DRW`, which learns of it only through VF (R25): with another
display every other instruction has the same outcome but for the display, which stays the other one, and under `CLS` the
same display too; `DRW` has the same outcome but for the display and VF. -/
def Obligations.DisplayIsReadOnlyByDraw : Prop :=
  ∀ (i : Instr) (s : State) (d : Display),
    SameOutcome (fun t u => if (∃ x y n, i = .drw x y n) then
        u = { t with disp := u.disp, v := u.v } ∧ ∀ r, r ≠ 15 → u.reg r = t.reg r
      else u = { t with disp := u.disp } ∧ (writesDisp i = false → u.disp = d) ∧ (i = .cls → u.disp = t.disp))
      (exec i s) (exec i { s with disp := d })

/-- The stack cells that hold no return address cannot be observed (R22): two states that differ only in them step to
states that differ only in them, or stop alike, whatever the step's operation, and introspection (R220) and the display
snapshot (R219) show the same. So the model's choice of their content (log entry 12) shows nowhere. -/
def Obligations.DeadStackCellsAreUnobservable : Prop :=
  ∀ s t : State, SameButDeadCells s t →
    SameOutcome SameButDeadCells (step s) (step t) ∧ t.introspect = s.introspect ∧ t.snapshot = s.snapshot

/-- Fixed points of the cycle (of R225 (a) to (c), R30): at the sentinel, at a `JP` to itself, and at `LD Vx,K` with no key
pressed, the cycle changes nothing, so that no number of steps does while the driver issues cycles alone (log entry 14).
The numbers of `JP` and of FX0A are decision D1 (log entry 3), that the word of the sentinel is the end of a run decision
D17 (log entry 26), and that `pc` rolls back to itself at the top of memory decision D5 (log entry 6), where the word's
second cell wraps by decision D4 (log entry 5). -/
def Obligations.FixedPointsOfTheCycle : Prop :=
  ∀ s : State, s.EndedByWord ∨ s.AwaitsKey →
    cycle s = .next s ∧ (s.driver = Driver.cycles → ∀ k, Host.Core.run Sys2Proof.core k s = Host.Outcome.next s)

/-- The end of a run, R225 (a) or (b): a `JP` to itself is such an end, and from every such end no number of cycles
faults, and after any number there is a later one at which the block is in the identical state, whatever the entropy source
supplies. That these states end a run is decision D17, whose narrower words name the first alone (log entry 26); the
numbers of the words are decision D1 (log entry 3). -/
def Obligations.EndedRunsReturnForever : Prop :=
  (∀ s : State, s.EndedByWord → s.Ended) ∧
  ∀ s : State, s.Ended → (∀ n, ∃ t, runCycles n s = .next t) ∧
    ∀ n, ∃ k t, n ≤ k ∧ runCycles k s = .next t ∧ s.SameBlock t

/-- The unknown-opcode diagnostic (R221) marks the words of R71 (b) and no others, with the word and its address. The
output itself is decision D13 (log entry 20). -/
def Obligations.DiagnosticMarksUnrecognisedWords : Prop :=
  ∀ s : State, (NoTableEntry (s.readWord s.pc) → s.unknownOpcode = some (s.readWord s.pc, s.pc)) ∧
    (¬ NoTableEntry (s.readWord s.pc) → s.unknownOpcode = none)

/-! The driver's operations (60_exceptions.md) and reset (70_reset_and_hazards.md). -/

/-- A step is the operation the driver issues next, whichever of the five of R217 it is, on the state with it taken off
the driver's stream (log entry 14). Only a Cycle can stop: Tick, SetKey, LoadROM (whatever its status) and Reset answer a
next state. -/
def Obligations.StepAppliesTheNextOperation : Prop :=
  ∀ s : State,
    (s.nextOperation = .cycle → step s = cycle s.taken) ∧
    (s.nextOperation = .tick → step s = .next s.taken.tick) ∧
    (∀ k pressed, s.nextOperation = .setKey k pressed → step s = .next (s.taken.setKey k pressed)) ∧
    (∀ bytes, s.nextOperation = .loadRom bytes → step s = .next (s.taken.loadRom bytes).1) ∧
    (s.nextOperation = .reset → step s = .next s.taken.construct)

/-- "A model takes as a run any finite or infinite sequence of operations" (R217, R7; log entry 14): the driver issues its
schedule in order; then, without end, its loop over and over, cycles if the loop is empty, or the free stream, of whose
operations nothing is known. No operation changes what the driver issues after it. -/
def Obligations.DriverIssuesItsStreamInOrder : Prop :=
  (∀ (s : State) (k : Nat) (op : Operation), s.driver.schedule[k]? = some op →
    (State.taken^[k] s).nextOperation = op) ∧
  (∀ (s : State) (ops : List Operation) (k : Nat), ops ≠ [] → s.driver = ⟨[], .loop ops⟩ →
    some (State.taken^[k] s).nextOperation = ops[k % ops.length]?) ∧
  (∀ (s : State) (n k : Nat), s.driver = ⟨[], .free n⟩ →
    (State.taken^[k] s).nextOperation = Config.operation (n + k)) ∧
  (∀ (s : State) (k : Nat), s.driver = Driver.cycles → (State.taken^[k] s).nextOperation = .cycle) ∧
  ∀ s t : State, step s = .next t → t.driver = s.taken.driver

/-- R212: a tick takes 1 from each timer, floored at 0, independently, and changes nothing else; n ticks take n, so that a
timer loaded with v reaches 0 after exactly v. -/
def Obligations.TickCountsDownToZero : Prop :=
  ∀ (s : State) (n : Nat), let t := State.tick^[n] s
    t.dt.toNat = s.dt.toNat - n ∧ t.st.toNat = s.st.toNat - n ∧ t = { s with dt := t.dt, st := t.st }

/-- R213: SetKey writes the one flag it names and changes nothing else; setting a flag to the value it has changes
nothing. -/
def Obligations.SetKeyWritesOneFlag : Prop :=
  ∀ (s : State) (k : Reg) (pressed : Bool), let t := s.setKey k pressed
    t.key k = pressed ∧ (∀ j, j ≠ k → t.key j = s.key j) ∧ t = { s with keys := t.keys } ∧
      (s.key k = pressed → t = s)

/-- R215: LoadROM of at most 3584 bytes copies them to 0x200 onward, changes no other cell and nothing else, and its status
is OK; a longer sequence is a CapacityError and the state is unchanged. -/
def Obligations.LoadRomCopiesTheBytes : Prop :=
  ∀ (s : State) (bytes : List Byte),
    (bytes.length ≤ 3584 → (s.loadRom bytes).2 = .ok ∧ let t := (s.loadRom bytes).1
      (∀ k (h : k < bytes.length), t.readByte (BitVec.ofNat 12 (0x200 + k)) = bytes[k]) ∧
      (∀ a : Addr, a.toNat < 0x200 ∨ 0x200 + bytes.length ≤ a.toNat → t.readByte a = s.readByte a) ∧
      t = { s with mem := t.mem }) ∧
    (3584 < bytes.length → s.loadRom bytes = (s, .capacityError))

/-- Reset (R240, R216): a step whose operation is a Reset gives every component its reset value, the font from the
machine's FONT, and memory lists nothing (log entry 27). The key flags are decision D10 (log entry 11), the stack cells the
model's choice (log entry 12), and FONT, the driver's stream (log entry 14) and the entropy source, its injected bytes and
its count, go on (log entry 24). -/
def Obligations.ResetConstructsTheMachine : Prop :=
  ∀ s : State, s.nextOperation = .reset →
    Completes (step s) fun t => HasResetValues s.font t ∧ t.mem = [] ∧ t.font = s.font ∧
      t.driver = s.taken.driver ∧ t.entropy = s.entropy ∧ t.draws = s.draws

/-- The state right after reset has the values of R33 (R240), with the default FONT of R47, which the spec supplies from
general knowledge (D3, log entry 1); and construction has them for every FONT. -/
def Obligations.ResetStateHasTheResetValues : Prop :=
  HasResetValues defaultFont State.reset ∧ ∀ font, HasResetValues font (State.initial font)

/-- "The core is safe to clock with no program" (R242). A step that is a Cycle at two cells of 0x00, in every state,
changes nothing but that the Cycle is taken off the driver's stream (R82; that the second cell wraps is decision D4, log
entry 5). Construction leaves no program, for every FONT; and from every state with no program every step but a LoadROM, a
Tick, a SetKey or a Reset among them, answers a next state with no program (log entry 14). -/
def Obligations.CoreIsSafeWithNoProgram : Prop :=
  (∀ s : State, s.readByte s.pc = 0x00#8 → s.readByte (pcPlus s 1) = 0x00#8 → s.nextOperation = .cycle →
    step s = .next s.taken) ∧
  (∀ font, (State.initial font).NoProgram) ∧
  ∀ s : State, s.NoProgram → (∀ bytes, s.nextOperation ≠ .loadRom bytes) → Completes (step s) State.NoProgram

/-- Memory is in its canonical form at reset. -/
def Obligations.ResetMemoryIsCanonical : Prop := State.reset.Inv

/-- Every step keeps memory in its canonical form, whichever of the five operations it is: addresses rise, lie below 4096,
and no cell is listed with its reset content, so that equal memories are equal data. -/
def Obligations.StepKeepsMemoryCanonical : Prop := ∀ s t : State, s.Inv → step s = .next t → t.Inv
end

