-- ==== Sys2Proof/Laws/Encoding.lean ====
section
/-! SUPPORT. The fields of a word written in each format, and the word of its fields (30_encoding.md R61, R62). -/

namespace Sys2Proof

@[simp] theorem Reg.ofBits_bits (x : Reg) : Reg.ofBits (Reg.bits x) = x := rfl

@[simp] theorem Reg.bits_ofBits (b : BitVec 4) : Reg.bits (Reg.ofBits b) = b := rfl

/-! Format NNN. -/

@[simp] theorem cat_fmtNNN (c : BitVec 4) (a : Addr) : Word.cat (fmtNNN c a) = c := by
  refine BitVec.eq_of_getLsbD_eq fun i hi => ?_
  simp only [Word.cat, fmtNNN, BitVec.getLsbD_extractLsb', BitVec.getLsbD_append]
  simp [hi]

@[simp] theorem nnn_fmtNNN (c : BitVec 4) (a : Addr) : Word.nnn (fmtNNN c a) = a := by
  refine BitVec.eq_of_getLsbD_eq fun i hi => ?_
  simp only [Word.nnn, fmtNNN, BitVec.getLsbD_extractLsb', BitVec.getLsbD_append]
  simp [hi]

theorem fmtNNN_fields (w : Word) : fmtNNN (Word.cat w) (Word.nnn w) = w := by
  refine BitVec.eq_of_getLsbD_eq fun i hi => ?_
  simp only [Word.cat, Word.nnn, fmtNNN, BitVec.getLsbD_append, BitVec.getLsbD_extractLsb']
  split
  · next h => simp [h]
  · next h => simp [show i - 12 < 4 by omega, show 12 + (i - 12) = i by omega]

/-! Format XKK. -/

theorem fmtXKK_eq (c : BitVec 4) (x : Reg) (kk : Byte) : fmtXKK c x kk = fmtNNN c (Reg.bits x ++ kk) := by
  refine BitVec.eq_of_getLsbD_eq fun i hi => ?_
  simp only [fmtXKK, fmtNNN, BitVec.getLsbD_append]
  split
  · next h => simp [show i < 12 by omega]
  · next h =>
    by_cases h' : i < 12
    · simp [h', show i - 8 < 4 by omega]
    · simp [h', show ¬ i - 8 < 4 by omega, show i - 8 - 4 = i - 12 by omega]

theorem x_of_nnn (w : Word) : Word.x w = Reg.ofBits ((Word.nnn w).extractLsb' 8 4) := by
  refine congrArg Reg.ofBits (BitVec.eq_of_getLsbD_eq fun i hi => ?_)
  simp only [Word.nnn, BitVec.getLsbD_extractLsb']
  simp [hi, show 8 + i < 12 by omega]

theorem kk_of_nnn (w : Word) : Word.kk w = (Word.nnn w).extractLsb' 0 8 := by
  refine BitVec.eq_of_getLsbD_eq fun i hi => ?_
  simp only [Word.kk, Word.nnn, BitVec.getLsbD_extractLsb']
  simp [hi, show i < 12 by omega]

@[simp] theorem cat_fmtXKK (c : BitVec 4) (x : Reg) (kk : Byte) : Word.cat (fmtXKK c x kk) = c := by
  rw [fmtXKK_eq, cat_fmtNNN]

@[simp] theorem x_fmtXKK (c : BitVec 4) (x : Reg) (kk : Byte) : Word.x (fmtXKK c x kk) = x := by
  rw [fmtXKK_eq, x_of_nnn, nnn_fmtNNN]
  conv_rhs => rw [← Reg.ofBits_bits x]
  refine congrArg Reg.ofBits (BitVec.eq_of_getLsbD_eq fun i hi => ?_)
  simp only [BitVec.getLsbD_extractLsb', BitVec.getLsbD_append]
  simp [hi]

@[simp] theorem kk_fmtXKK (c : BitVec 4) (x : Reg) (kk : Byte) : Word.kk (fmtXKK c x kk) = kk := by
  rw [fmtXKK_eq, kk_of_nnn, nnn_fmtNNN]
  refine BitVec.eq_of_getLsbD_eq fun i hi => ?_
  simp only [BitVec.getLsbD_extractLsb', BitVec.getLsbD_append]
  simp [hi]

theorem fmtXKK_fields (w : Word) : fmtXKK (Word.cat w) (Word.x w) (Word.kk w) = w := by
  refine BitVec.eq_of_getLsbD_eq fun i hi => ?_
  simp only [Word.cat, Word.x, Word.kk, fmtXKK, Reg.bits_ofBits, BitVec.getLsbD_append, BitVec.getLsbD_extractLsb']
  by_cases h : i < 8
  · simp [h]
  · by_cases h' : i < 12
    · simp [h, show i - 8 < 4 by omega, show 8 + (i - 8) = i by omega]
    · simp [h, show ¬ i - 8 < 4 by omega, show i - 8 - 4 < 4 by omega, show 12 + (i - 8 - 4) = i by omega]

/-! Format XYN. -/

theorem fmtXYN_eq (c : BitVec 4) (x y : Reg) (n : BitVec 4) : fmtXYN c x y n = fmtXKK c x (Reg.bits y ++ n) := by
  refine BitVec.eq_of_getLsbD_eq fun i hi => ?_
  simp only [fmtXYN, fmtXKK, BitVec.getLsbD_append]
  by_cases h : i < 4
  · simp [h, show i < 8 by omega]
  · by_cases h' : i < 8
    · simp [h, h', show i - 4 < 4 by omega]
    · by_cases h'' : i < 12
      · simp [h, h', show ¬ i - 4 < 4 by omega, show i - 4 - 4 = i - 8 by omega, show i - 8 < 4 by omega]
      · simp [h, h', show ¬ i - 4 < 4 by omega, show i - 4 - 4 = i - 8 by omega, show ¬ i - 8 < 4 by omega]

theorem y_of_kk (w : Word) : Word.y w = Reg.ofBits ((Word.kk w).extractLsb' 4 4) := by
  refine congrArg Reg.ofBits (BitVec.eq_of_getLsbD_eq fun i hi => ?_)
  simp only [Word.kk, BitVec.getLsbD_extractLsb']
  simp [hi, show 4 + i < 8 by omega]

theorem n_of_kk (w : Word) : Word.n w = (Word.kk w).extractLsb' 0 4 := by
  refine BitVec.eq_of_getLsbD_eq fun i hi => ?_
  simp only [Word.n, Word.kk, BitVec.getLsbD_extractLsb']
  simp [hi, show i < 8 by omega]

@[simp] theorem cat_fmtXYN (c : BitVec 4) (x y : Reg) (n : BitVec 4) : Word.cat (fmtXYN c x y n) = c := by
  rw [fmtXYN_eq, cat_fmtXKK]

@[simp] theorem x_fmtXYN (c : BitVec 4) (x y : Reg) (n : BitVec 4) : Word.x (fmtXYN c x y n) = x := by
  rw [fmtXYN_eq, x_fmtXKK]

@[simp] theorem y_fmtXYN (c : BitVec 4) (x y : Reg) (n : BitVec 4) : Word.y (fmtXYN c x y n) = y := by
  rw [fmtXYN_eq, y_of_kk, kk_fmtXKK]
  conv_rhs => rw [← Reg.ofBits_bits y]
  refine congrArg Reg.ofBits (BitVec.eq_of_getLsbD_eq fun i hi => ?_)
  simp only [BitVec.getLsbD_extractLsb', BitVec.getLsbD_append]
  simp [hi]

@[simp] theorem n_fmtXYN (c : BitVec 4) (x y : Reg) (n : BitVec 4) : Word.n (fmtXYN c x y n) = n := by
  rw [fmtXYN_eq, n_of_kk, kk_fmtXKK]
  refine BitVec.eq_of_getLsbD_eq fun i hi => ?_
  simp only [BitVec.getLsbD_extractLsb', BitVec.getLsbD_append]
  simp [hi]

theorem fmtXYN_fields (w : Word) : fmtXYN (Word.cat w) (Word.x w) (Word.y w) (Word.n w) = w := by
  rw [fmtXYN_eq]
  refine Eq.trans (congrArg (fmtXKK _ _) ?_) (fmtXKK_fields w)
  rw [y_of_kk, n_of_kk, Reg.bits_ofBits]
  refine BitVec.eq_of_getLsbD_eq fun i hi => ?_
  simp only [BitVec.getLsbD_append, BitVec.getLsbD_extractLsb']
  by_cases h : i < 4
  · simp [h]
  · simp [h, show i - 4 < 4 by omega, show 4 + (i - 4) = i by omega]

/-! The two bytes of a word (R50). -/

@[simp] theorem wordOfBytes_bytes (w : Word) : wordOfBytes (highByte w) (lowByte w) = w := by
  refine BitVec.eq_of_getLsbD_eq fun i hi => ?_
  simp only [wordOfBytes, highByte, lowByte, BitVec.getLsbD_append, BitVec.getLsbD_extractLsb']
  by_cases h : i < 8
  · simp [h]
  · simp [h, show i - 8 < 8 by omega, show 8 + (i - 8) = i by omega]

end Sys2Proof
end

