-- ==== Sys2Proof/Laws/State.lean ====
section
/-! SUPPORT. One lemma per field per update of State, and per observation an update leaves alone, each true by rfl, so
that no later proof unfolds a record update. -/

namespace Sys2Proof.Machine

/-! `State.setReg` -/

@[simp] theorem State.setReg_v (s : State) (x : Reg) (b : Byte) : (s.setReg x b).v = s.v.set x.val b := rfl
@[simp] theorem State.setReg_idx (s : State) (x : Reg) (b : Byte) : (s.setReg x b).idx = s.idx := rfl
@[simp] theorem State.setReg_pc (s : State) (x : Reg) (b : Byte) : (s.setReg x b).pc = s.pc := rfl
@[simp] theorem State.setReg_stack (s : State) (x : Reg) (b : Byte) : (s.setReg x b).stack = s.stack := rfl
@[simp] theorem State.setReg_sp (s : State) (x : Reg) (b : Byte) : (s.setReg x b).sp = s.sp := rfl
@[simp] theorem State.setReg_dt (s : State) (x : Reg) (b : Byte) : (s.setReg x b).dt = s.dt := rfl
@[simp] theorem State.setReg_st (s : State) (x : Reg) (b : Byte) : (s.setReg x b).st = s.st := rfl
@[simp] theorem State.setReg_keys (s : State) (x : Reg) (b : Byte) : (s.setReg x b).keys = s.keys := rfl
@[simp] theorem State.setReg_disp (s : State) (x : Reg) (b : Byte) : (s.setReg x b).disp = s.disp := rfl
@[simp] theorem State.setReg_mem (s : State) (x : Reg) (b : Byte) : (s.setReg x b).mem = s.mem := rfl
@[simp] theorem State.setReg_font (s : State) (x : Reg) (b : Byte) : (s.setReg x b).font = s.font := rfl
@[simp] theorem State.setReg_driver (s : State) (x : Reg) (b : Byte) : (s.setReg x b).driver = s.driver := rfl
@[simp] theorem State.setReg_entropy (s : State) (x : Reg) (b : Byte) : (s.setReg x b).entropy = s.entropy := rfl
@[simp] theorem State.setReg_draws (s : State) (x : Reg) (b : Byte) : (s.setReg x b).draws = s.draws := rfl
@[simp] theorem State.setReg_key (s : State) (x : Reg) (b : Byte) (j : Reg) : (s.setReg x b).key j = s.key j := rfl
@[simp] theorem State.setReg_pixel (s : State) (x : Reg) (b : Byte) (r : Fin 32) (c : Fin 64) : (s.setReg x b).pixel r c = s.pixel r c := rfl
@[simp] theorem State.setReg_readByte (s : State) (x : Reg) (b : Byte) (e : Addr) : (s.setReg x b).readByte e = s.readByte e := rfl
@[simp] theorem State.setReg_ea (s : State) (x : Reg) (b : Byte) (n : Nat) : (s.setReg x b).ea n = s.ea n := rfl

/-! `State.setIdx` -/

@[simp] theorem State.setIdx_v (s : State) (a : Addr) : (s.setIdx a).v = s.v := rfl
@[simp] theorem State.setIdx_idx (s : State) (a : Addr) : (s.setIdx a).idx = a := rfl
@[simp] theorem State.setIdx_pc (s : State) (a : Addr) : (s.setIdx a).pc = s.pc := rfl
@[simp] theorem State.setIdx_stack (s : State) (a : Addr) : (s.setIdx a).stack = s.stack := rfl
@[simp] theorem State.setIdx_sp (s : State) (a : Addr) : (s.setIdx a).sp = s.sp := rfl
@[simp] theorem State.setIdx_dt (s : State) (a : Addr) : (s.setIdx a).dt = s.dt := rfl
@[simp] theorem State.setIdx_st (s : State) (a : Addr) : (s.setIdx a).st = s.st := rfl
@[simp] theorem State.setIdx_keys (s : State) (a : Addr) : (s.setIdx a).keys = s.keys := rfl
@[simp] theorem State.setIdx_disp (s : State) (a : Addr) : (s.setIdx a).disp = s.disp := rfl
@[simp] theorem State.setIdx_mem (s : State) (a : Addr) : (s.setIdx a).mem = s.mem := rfl
@[simp] theorem State.setIdx_font (s : State) (a : Addr) : (s.setIdx a).font = s.font := rfl
@[simp] theorem State.setIdx_driver (s : State) (a : Addr) : (s.setIdx a).driver = s.driver := rfl
@[simp] theorem State.setIdx_entropy (s : State) (a : Addr) : (s.setIdx a).entropy = s.entropy := rfl
@[simp] theorem State.setIdx_draws (s : State) (a : Addr) : (s.setIdx a).draws = s.draws := rfl
@[simp] theorem State.setIdx_reg (s : State) (a : Addr) (y : Reg) : (s.setIdx a).reg y = s.reg y := rfl
@[simp] theorem State.setIdx_key (s : State) (a : Addr) (j : Reg) : (s.setIdx a).key j = s.key j := rfl
@[simp] theorem State.setIdx_pixel (s : State) (a : Addr) (r : Fin 32) (c : Fin 64) : (s.setIdx a).pixel r c = s.pixel r c := rfl
@[simp] theorem State.setIdx_readByte (s : State) (a : Addr) (e : Addr) : (s.setIdx a).readByte e = s.readByte e := rfl

/-! `State.setPc` -/

@[simp] theorem State.setPc_v (s : State) (a : Addr) : (s.setPc a).v = s.v := rfl
@[simp] theorem State.setPc_idx (s : State) (a : Addr) : (s.setPc a).idx = s.idx := rfl
@[simp] theorem State.setPc_pc (s : State) (a : Addr) : (s.setPc a).pc = a := rfl
@[simp] theorem State.setPc_stack (s : State) (a : Addr) : (s.setPc a).stack = s.stack := rfl
@[simp] theorem State.setPc_sp (s : State) (a : Addr) : (s.setPc a).sp = s.sp := rfl
@[simp] theorem State.setPc_dt (s : State) (a : Addr) : (s.setPc a).dt = s.dt := rfl
@[simp] theorem State.setPc_st (s : State) (a : Addr) : (s.setPc a).st = s.st := rfl
@[simp] theorem State.setPc_keys (s : State) (a : Addr) : (s.setPc a).keys = s.keys := rfl
@[simp] theorem State.setPc_disp (s : State) (a : Addr) : (s.setPc a).disp = s.disp := rfl
@[simp] theorem State.setPc_mem (s : State) (a : Addr) : (s.setPc a).mem = s.mem := rfl
@[simp] theorem State.setPc_font (s : State) (a : Addr) : (s.setPc a).font = s.font := rfl
@[simp] theorem State.setPc_driver (s : State) (a : Addr) : (s.setPc a).driver = s.driver := rfl
@[simp] theorem State.setPc_entropy (s : State) (a : Addr) : (s.setPc a).entropy = s.entropy := rfl
@[simp] theorem State.setPc_draws (s : State) (a : Addr) : (s.setPc a).draws = s.draws := rfl
@[simp] theorem State.setPc_reg (s : State) (a : Addr) (y : Reg) : (s.setPc a).reg y = s.reg y := rfl
@[simp] theorem State.setPc_key (s : State) (a : Addr) (j : Reg) : (s.setPc a).key j = s.key j := rfl
@[simp] theorem State.setPc_pixel (s : State) (a : Addr) (r : Fin 32) (c : Fin 64) : (s.setPc a).pixel r c = s.pixel r c := rfl
@[simp] theorem State.setPc_readByte (s : State) (a : Addr) (e : Addr) : (s.setPc a).readByte e = s.readByte e := rfl
@[simp] theorem State.setPc_ea (s : State) (a : Addr) (n : Nat) : (s.setPc a).ea n = s.ea n := rfl

/-! `State.advance` -/

@[simp] theorem State.advance_v (s : State) : (s.advance).v = s.v := rfl
@[simp] theorem State.advance_idx (s : State) : (s.advance).idx = s.idx := rfl
@[simp] theorem State.advance_pc (s : State) : (s.advance).pc = s.pc2 := rfl
@[simp] theorem State.advance_stack (s : State) : (s.advance).stack = s.stack := rfl
@[simp] theorem State.advance_sp (s : State) : (s.advance).sp = s.sp := rfl
@[simp] theorem State.advance_dt (s : State) : (s.advance).dt = s.dt := rfl
@[simp] theorem State.advance_st (s : State) : (s.advance).st = s.st := rfl
@[simp] theorem State.advance_keys (s : State) : (s.advance).keys = s.keys := rfl
@[simp] theorem State.advance_disp (s : State) : (s.advance).disp = s.disp := rfl
@[simp] theorem State.advance_mem (s : State) : (s.advance).mem = s.mem := rfl
@[simp] theorem State.advance_font (s : State) : (s.advance).font = s.font := rfl
@[simp] theorem State.advance_driver (s : State) : (s.advance).driver = s.driver := rfl
@[simp] theorem State.advance_entropy (s : State) : (s.advance).entropy = s.entropy := rfl
@[simp] theorem State.advance_draws (s : State) : (s.advance).draws = s.draws := rfl
@[simp] theorem State.advance_reg (s : State) (y : Reg) : (s.advance).reg y = s.reg y := rfl
@[simp] theorem State.advance_key (s : State) (j : Reg) : (s.advance).key j = s.key j := rfl
@[simp] theorem State.advance_pixel (s : State) (r : Fin 32) (c : Fin 64) : (s.advance).pixel r c = s.pixel r c := rfl
@[simp] theorem State.advance_readByte (s : State) (e : Addr) : (s.advance).readByte e = s.readByte e := rfl
@[simp] theorem State.advance_ea (s : State) (n : Nat) : (s.advance).ea n = s.ea n := rfl

/-! `State.setDt` -/

@[simp] theorem State.setDt_v (s : State) (b : Byte) : (s.setDt b).v = s.v := rfl
@[simp] theorem State.setDt_idx (s : State) (b : Byte) : (s.setDt b).idx = s.idx := rfl
@[simp] theorem State.setDt_pc (s : State) (b : Byte) : (s.setDt b).pc = s.pc := rfl
@[simp] theorem State.setDt_stack (s : State) (b : Byte) : (s.setDt b).stack = s.stack := rfl
@[simp] theorem State.setDt_sp (s : State) (b : Byte) : (s.setDt b).sp = s.sp := rfl
@[simp] theorem State.setDt_dt (s : State) (b : Byte) : (s.setDt b).dt = b := rfl
@[simp] theorem State.setDt_st (s : State) (b : Byte) : (s.setDt b).st = s.st := rfl
@[simp] theorem State.setDt_keys (s : State) (b : Byte) : (s.setDt b).keys = s.keys := rfl
@[simp] theorem State.setDt_disp (s : State) (b : Byte) : (s.setDt b).disp = s.disp := rfl
@[simp] theorem State.setDt_mem (s : State) (b : Byte) : (s.setDt b).mem = s.mem := rfl
@[simp] theorem State.setDt_font (s : State) (b : Byte) : (s.setDt b).font = s.font := rfl
@[simp] theorem State.setDt_driver (s : State) (b : Byte) : (s.setDt b).driver = s.driver := rfl
@[simp] theorem State.setDt_entropy (s : State) (b : Byte) : (s.setDt b).entropy = s.entropy := rfl
@[simp] theorem State.setDt_draws (s : State) (b : Byte) : (s.setDt b).draws = s.draws := rfl
@[simp] theorem State.setDt_reg (s : State) (b : Byte) (y : Reg) : (s.setDt b).reg y = s.reg y := rfl
@[simp] theorem State.setDt_key (s : State) (b : Byte) (j : Reg) : (s.setDt b).key j = s.key j := rfl
@[simp] theorem State.setDt_pixel (s : State) (b : Byte) (r : Fin 32) (c : Fin 64) : (s.setDt b).pixel r c = s.pixel r c := rfl
@[simp] theorem State.setDt_readByte (s : State) (b : Byte) (e : Addr) : (s.setDt b).readByte e = s.readByte e := rfl
@[simp] theorem State.setDt_ea (s : State) (b : Byte) (n : Nat) : (s.setDt b).ea n = s.ea n := rfl

/-! `State.setSt` -/

@[simp] theorem State.setSt_v (s : State) (b : Byte) : (s.setSt b).v = s.v := rfl
@[simp] theorem State.setSt_idx (s : State) (b : Byte) : (s.setSt b).idx = s.idx := rfl
@[simp] theorem State.setSt_pc (s : State) (b : Byte) : (s.setSt b).pc = s.pc := rfl
@[simp] theorem State.setSt_stack (s : State) (b : Byte) : (s.setSt b).stack = s.stack := rfl
@[simp] theorem State.setSt_sp (s : State) (b : Byte) : (s.setSt b).sp = s.sp := rfl
@[simp] theorem State.setSt_dt (s : State) (b : Byte) : (s.setSt b).dt = s.dt := rfl
@[simp] theorem State.setSt_st (s : State) (b : Byte) : (s.setSt b).st = b := rfl
@[simp] theorem State.setSt_keys (s : State) (b : Byte) : (s.setSt b).keys = s.keys := rfl
@[simp] theorem State.setSt_disp (s : State) (b : Byte) : (s.setSt b).disp = s.disp := rfl
@[simp] theorem State.setSt_mem (s : State) (b : Byte) : (s.setSt b).mem = s.mem := rfl
@[simp] theorem State.setSt_font (s : State) (b : Byte) : (s.setSt b).font = s.font := rfl
@[simp] theorem State.setSt_driver (s : State) (b : Byte) : (s.setSt b).driver = s.driver := rfl
@[simp] theorem State.setSt_entropy (s : State) (b : Byte) : (s.setSt b).entropy = s.entropy := rfl
@[simp] theorem State.setSt_draws (s : State) (b : Byte) : (s.setSt b).draws = s.draws := rfl
@[simp] theorem State.setSt_reg (s : State) (b : Byte) (y : Reg) : (s.setSt b).reg y = s.reg y := rfl
@[simp] theorem State.setSt_key (s : State) (b : Byte) (j : Reg) : (s.setSt b).key j = s.key j := rfl
@[simp] theorem State.setSt_pixel (s : State) (b : Byte) (r : Fin 32) (c : Fin 64) : (s.setSt b).pixel r c = s.pixel r c := rfl
@[simp] theorem State.setSt_readByte (s : State) (b : Byte) (e : Addr) : (s.setSt b).readByte e = s.readByte e := rfl
@[simp] theorem State.setSt_ea (s : State) (b : Byte) (n : Nat) : (s.setSt b).ea n = s.ea n := rfl

/-! `State.setKey` -/

@[simp] theorem State.setKey_v (s : State) (k : Reg) (p : Bool) : (s.setKey k p).v = s.v := rfl
@[simp] theorem State.setKey_idx (s : State) (k : Reg) (p : Bool) : (s.setKey k p).idx = s.idx := rfl
@[simp] theorem State.setKey_pc (s : State) (k : Reg) (p : Bool) : (s.setKey k p).pc = s.pc := rfl
@[simp] theorem State.setKey_stack (s : State) (k : Reg) (p : Bool) : (s.setKey k p).stack = s.stack := rfl
@[simp] theorem State.setKey_sp (s : State) (k : Reg) (p : Bool) : (s.setKey k p).sp = s.sp := rfl
@[simp] theorem State.setKey_dt (s : State) (k : Reg) (p : Bool) : (s.setKey k p).dt = s.dt := rfl
@[simp] theorem State.setKey_st (s : State) (k : Reg) (p : Bool) : (s.setKey k p).st = s.st := rfl
@[simp] theorem State.setKey_keys (s : State) (k : Reg) (p : Bool) : (s.setKey k p).keys = s.keys.set k.val p := rfl
@[simp] theorem State.setKey_disp (s : State) (k : Reg) (p : Bool) : (s.setKey k p).disp = s.disp := rfl
@[simp] theorem State.setKey_mem (s : State) (k : Reg) (p : Bool) : (s.setKey k p).mem = s.mem := rfl
@[simp] theorem State.setKey_font (s : State) (k : Reg) (p : Bool) : (s.setKey k p).font = s.font := rfl
@[simp] theorem State.setKey_driver (s : State) (k : Reg) (p : Bool) : (s.setKey k p).driver = s.driver := rfl
@[simp] theorem State.setKey_entropy (s : State) (k : Reg) (p : Bool) : (s.setKey k p).entropy = s.entropy := rfl
@[simp] theorem State.setKey_draws (s : State) (k : Reg) (p : Bool) : (s.setKey k p).draws = s.draws := rfl
@[simp] theorem State.setKey_reg (s : State) (k : Reg) (p : Bool) (y : Reg) : (s.setKey k p).reg y = s.reg y := rfl
@[simp] theorem State.setKey_pixel (s : State) (k : Reg) (p : Bool) (r : Fin 32) (c : Fin 64) : (s.setKey k p).pixel r c = s.pixel r c := rfl
@[simp] theorem State.setKey_readByte (s : State) (k : Reg) (p : Bool) (e : Addr) : (s.setKey k p).readByte e = s.readByte e := rfl
@[simp] theorem State.setKey_ea (s : State) (k : Reg) (p : Bool) (n : Nat) : (s.setKey k p).ea n = s.ea n := rfl

/-! `State.setDisp` -/

@[simp] theorem State.setDisp_v (s : State) (d : Display) : (s.setDisp d).v = s.v := rfl
@[simp] theorem State.setDisp_idx (s : State) (d : Display) : (s.setDisp d).idx = s.idx := rfl
@[simp] theorem State.setDisp_pc (s : State) (d : Display) : (s.setDisp d).pc = s.pc := rfl
@[simp] theorem State.setDisp_stack (s : State) (d : Display) : (s.setDisp d).stack = s.stack := rfl
@[simp] theorem State.setDisp_sp (s : State) (d : Display) : (s.setDisp d).sp = s.sp := rfl
@[simp] theorem State.setDisp_dt (s : State) (d : Display) : (s.setDisp d).dt = s.dt := rfl
@[simp] theorem State.setDisp_st (s : State) (d : Display) : (s.setDisp d).st = s.st := rfl
@[simp] theorem State.setDisp_keys (s : State) (d : Display) : (s.setDisp d).keys = s.keys := rfl
@[simp] theorem State.setDisp_disp (s : State) (d : Display) : (s.setDisp d).disp = d := rfl
@[simp] theorem State.setDisp_mem (s : State) (d : Display) : (s.setDisp d).mem = s.mem := rfl
@[simp] theorem State.setDisp_font (s : State) (d : Display) : (s.setDisp d).font = s.font := rfl
@[simp] theorem State.setDisp_driver (s : State) (d : Display) : (s.setDisp d).driver = s.driver := rfl
@[simp] theorem State.setDisp_entropy (s : State) (d : Display) : (s.setDisp d).entropy = s.entropy := rfl
@[simp] theorem State.setDisp_draws (s : State) (d : Display) : (s.setDisp d).draws = s.draws := rfl
@[simp] theorem State.setDisp_reg (s : State) (d : Display) (y : Reg) : (s.setDisp d).reg y = s.reg y := rfl
@[simp] theorem State.setDisp_key (s : State) (d : Display) (j : Reg) : (s.setDisp d).key j = s.key j := rfl
@[simp] theorem State.setDisp_readByte (s : State) (d : Display) (e : Addr) : (s.setDisp d).readByte e = s.readByte e := rfl
@[simp] theorem State.setDisp_ea (s : State) (d : Display) (n : Nat) : (s.setDisp d).ea n = s.ea n := rfl

/-! `State.writeByte` -/

@[simp] theorem State.writeByte_v (s : State) (a : Addr) (b : Byte) : (s.writeByte a b).v = s.v := rfl
@[simp] theorem State.writeByte_idx (s : State) (a : Addr) (b : Byte) : (s.writeByte a b).idx = s.idx := rfl
@[simp] theorem State.writeByte_pc (s : State) (a : Addr) (b : Byte) : (s.writeByte a b).pc = s.pc := rfl
@[simp] theorem State.writeByte_stack (s : State) (a : Addr) (b : Byte) : (s.writeByte a b).stack = s.stack := rfl
@[simp] theorem State.writeByte_sp (s : State) (a : Addr) (b : Byte) : (s.writeByte a b).sp = s.sp := rfl
@[simp] theorem State.writeByte_dt (s : State) (a : Addr) (b : Byte) : (s.writeByte a b).dt = s.dt := rfl
@[simp] theorem State.writeByte_st (s : State) (a : Addr) (b : Byte) : (s.writeByte a b).st = s.st := rfl
@[simp] theorem State.writeByte_keys (s : State) (a : Addr) (b : Byte) : (s.writeByte a b).keys = s.keys := rfl
@[simp] theorem State.writeByte_disp (s : State) (a : Addr) (b : Byte) : (s.writeByte a b).disp = s.disp := rfl
@[simp] theorem State.writeByte_mem (s : State) (a : Addr) (b : Byte) : (s.writeByte a b).mem = Memory.set s.font s.mem a.toNat b := rfl
@[simp] theorem State.writeByte_font (s : State) (a : Addr) (b : Byte) : (s.writeByte a b).font = s.font := rfl
@[simp] theorem State.writeByte_driver (s : State) (a : Addr) (b : Byte) : (s.writeByte a b).driver = s.driver := rfl
@[simp] theorem State.writeByte_entropy (s : State) (a : Addr) (b : Byte) : (s.writeByte a b).entropy = s.entropy := rfl
@[simp] theorem State.writeByte_draws (s : State) (a : Addr) (b : Byte) : (s.writeByte a b).draws = s.draws := rfl
@[simp] theorem State.writeByte_reg (s : State) (a : Addr) (b : Byte) (y : Reg) : (s.writeByte a b).reg y = s.reg y := rfl
@[simp] theorem State.writeByte_key (s : State) (a : Addr) (b : Byte) (j : Reg) : (s.writeByte a b).key j = s.key j := rfl
@[simp] theorem State.writeByte_pixel (s : State) (a : Addr) (b : Byte) (r : Fin 32) (c : Fin 64) : (s.writeByte a b).pixel r c = s.pixel r c := rfl
@[simp] theorem State.writeByte_ea (s : State) (a : Addr) (b : Byte) (n : Nat) : (s.writeByte a b).ea n = s.ea n := rfl

/-! `State.drawn` -/

@[simp] theorem State.drawn_v (s : State) : (s.drawn).v = s.v := rfl
@[simp] theorem State.drawn_idx (s : State) : (s.drawn).idx = s.idx := rfl
@[simp] theorem State.drawn_pc (s : State) : (s.drawn).pc = s.pc := rfl
@[simp] theorem State.drawn_stack (s : State) : (s.drawn).stack = s.stack := rfl
@[simp] theorem State.drawn_sp (s : State) : (s.drawn).sp = s.sp := rfl
@[simp] theorem State.drawn_dt (s : State) : (s.drawn).dt = s.dt := rfl
@[simp] theorem State.drawn_st (s : State) : (s.drawn).st = s.st := rfl
@[simp] theorem State.drawn_keys (s : State) : (s.drawn).keys = s.keys := rfl
@[simp] theorem State.drawn_disp (s : State) : (s.drawn).disp = s.disp := rfl
@[simp] theorem State.drawn_mem (s : State) : (s.drawn).mem = s.mem := rfl
@[simp] theorem State.drawn_font (s : State) : (s.drawn).font = s.font := rfl
@[simp] theorem State.drawn_driver (s : State) : (s.drawn).driver = s.driver := rfl
@[simp] theorem State.drawn_entropy (s : State) : (s.drawn).entropy = s.entropy.tail := rfl
@[simp] theorem State.drawn_draws (s : State) : (s.drawn).draws = s.draws + 1 := rfl
@[simp] theorem State.drawn_reg (s : State) (y : Reg) : (s.drawn).reg y = s.reg y := rfl
@[simp] theorem State.drawn_key (s : State) (j : Reg) : (s.drawn).key j = s.key j := rfl
@[simp] theorem State.drawn_pixel (s : State) (r : Fin 32) (c : Fin 64) : (s.drawn).pixel r c = s.pixel r c := rfl
@[simp] theorem State.drawn_readByte (s : State) (e : Addr) : (s.drawn).readByte e = s.readByte e := rfl
@[simp] theorem State.drawn_ea (s : State) (n : Nat) : (s.drawn).ea n = s.ea n := rfl

/-! `State.taken` -/

@[simp] theorem State.taken_v (s : State) : (s.taken).v = s.v := rfl
@[simp] theorem State.taken_idx (s : State) : (s.taken).idx = s.idx := rfl
@[simp] theorem State.taken_pc (s : State) : (s.taken).pc = s.pc := rfl
@[simp] theorem State.taken_stack (s : State) : (s.taken).stack = s.stack := rfl
@[simp] theorem State.taken_sp (s : State) : (s.taken).sp = s.sp := rfl
@[simp] theorem State.taken_dt (s : State) : (s.taken).dt = s.dt := rfl
@[simp] theorem State.taken_st (s : State) : (s.taken).st = s.st := rfl
@[simp] theorem State.taken_keys (s : State) : (s.taken).keys = s.keys := rfl
@[simp] theorem State.taken_disp (s : State) : (s.taken).disp = s.disp := rfl
@[simp] theorem State.taken_mem (s : State) : (s.taken).mem = s.mem := rfl
@[simp] theorem State.taken_font (s : State) : (s.taken).font = s.font := rfl
@[simp] theorem State.taken_driver (s : State) : (s.taken).driver = s.driver.rest := rfl
@[simp] theorem State.taken_entropy (s : State) : (s.taken).entropy = s.entropy := rfl
@[simp] theorem State.taken_draws (s : State) : (s.taken).draws = s.draws := rfl
@[simp] theorem State.taken_reg (s : State) (y : Reg) : (s.taken).reg y = s.reg y := rfl
@[simp] theorem State.taken_key (s : State) (j : Reg) : (s.taken).key j = s.key j := rfl
@[simp] theorem State.taken_pixel (s : State) (r : Fin 32) (c : Fin 64) : (s.taken).pixel r c = s.pixel r c := rfl
@[simp] theorem State.taken_readByte (s : State) (e : Addr) : (s.taken).readByte e = s.readByte e := rfl
@[simp] theorem State.taken_ea (s : State) (n : Nat) : (s.taken).ea n = s.ea n := rfl

/-! `State.tick` -/

@[simp] theorem State.tick_v (s : State) : (s.tick).v = s.v := rfl
@[simp] theorem State.tick_idx (s : State) : (s.tick).idx = s.idx := rfl
@[simp] theorem State.tick_pc (s : State) : (s.tick).pc = s.pc := rfl
@[simp] theorem State.tick_stack (s : State) : (s.tick).stack = s.stack := rfl
@[simp] theorem State.tick_sp (s : State) : (s.tick).sp = s.sp := rfl
@[simp] theorem State.tick_dt (s : State) : (s.tick).dt = countDown s.dt := rfl
@[simp] theorem State.tick_st (s : State) : (s.tick).st = countDown s.st := rfl
@[simp] theorem State.tick_keys (s : State) : (s.tick).keys = s.keys := rfl
@[simp] theorem State.tick_disp (s : State) : (s.tick).disp = s.disp := rfl
@[simp] theorem State.tick_mem (s : State) : (s.tick).mem = s.mem := rfl
@[simp] theorem State.tick_font (s : State) : (s.tick).font = s.font := rfl
@[simp] theorem State.tick_driver (s : State) : (s.tick).driver = s.driver := rfl
@[simp] theorem State.tick_entropy (s : State) : (s.tick).entropy = s.entropy := rfl
@[simp] theorem State.tick_draws (s : State) : (s.tick).draws = s.draws := rfl
@[simp] theorem State.tick_reg (s : State) (y : Reg) : (s.tick).reg y = s.reg y := rfl
@[simp] theorem State.tick_key (s : State) (j : Reg) : (s.tick).key j = s.key j := rfl
@[simp] theorem State.tick_pixel (s : State) (r : Fin 32) (c : Fin 64) : (s.tick).pixel r c = s.pixel r c := rfl
@[simp] theorem State.tick_readByte (s : State) (e : Addr) : (s.tick).readByte e = s.readByte e := rfl
@[simp] theorem State.tick_ea (s : State) (n : Nat) : (s.tick).ea n = s.ea n := rfl

end Sys2Proof.Machine
end

