-- ==== Sys2Proof/Laws/Memory.lean ====
section
/-! SUPPORT. The laws of memory: a read after a write, the canonical form that every memory operation keeps, and that
equal reads make equal lists. -/

namespace Sys2Proof.Machine

variable {font : Vector Byte Config.fontLen} {m m' : List Host.Cell} {a e : Nat} {v : Byte}

theorem Memory.lookup_put : Memory.lookup (Memory.put m a v) e = if e = a then some v else Memory.lookup m e := by
  induction m with
  | nil => simp only [Memory.put, Memory.lookup, eq_comm]
  | cons c m ih =>
    obtain ⟨b, w⟩ := c
    simp only [Memory.put]
    split
    · simp only [Memory.lookup, eq_comm (a := a)]
    · split
      · next h => subst h; simp only [Memory.lookup, eq_comm (a := a)]; split <;> rfl
      · next h => simp only [Memory.lookup, ih]; split <;> split <;> simp_all

theorem Memory.lookup_erase : Memory.lookup (Memory.erase m a) e = if e = a then none else Memory.lookup m e := by
  induction m with
  | nil => simp [Memory.erase, Memory.lookup]
  | cons c m ih =>
    obtain ⟨b, w⟩ := c
    simp only [Memory.erase] at ih
    by_cases h : b = a
    · subst h
      simp only [Memory.erase, List.filter_cons, bne_self_eq_false, Bool.false_eq_true, if_false, ih, Memory.lookup,
        eq_comm (a := b)]
      split <;> rfl
    · simp only [Memory.erase, List.filter_cons, bne_iff_ne, ne_eq, h, not_false_eq_true, if_true, Memory.lookup, ih]
      split <;> split <;> simp_all

theorem Memory.mem_put {c : Host.Cell} (h : c ∈ Memory.put m a v) : c = (a, v) ∨ c ∈ m := by
  induction m with
  | nil => simpa [Memory.put] using h
  | cons d m ih =>
    simp only [Memory.put] at h
    split at h
    · simpa using h
    · split at h
      · simp only [List.mem_cons] at h ⊢; tauto
      · simp only [List.mem_cons] at h ⊢
        rcases h with h | h
        · exact Or.inr (Or.inl h)
        · rcases ih h with h | h
          · exact Or.inl h
          · exact Or.inr (Or.inr h)

theorem Memory.erase_sublist : (Memory.erase m a).Sublist m := List.filter_sublist

theorem Memory.pairwise_put (hm : m.Pairwise fun c d => c.1 < d.1) :
    (Memory.put m a v).Pairwise fun c d => c.1 < d.1 := by
  induction m with
  | nil => exact List.pairwise_singleton ..
  | cons c m ih =>
    obtain ⟨b, w⟩ := c
    have hm' := hm
    rw [List.pairwise_cons] at hm
    simp only [Memory.put]
    split
    · next h =>
      rw [List.pairwise_cons]
      refine ⟨fun d hd => ?_, hm'⟩
      rcases List.mem_cons.1 hd with rfl | hd
      · exact h
      · exact Nat.lt_trans h (hm.1 d hd)
    · split
      · next h => rw [List.pairwise_cons]; subst h; exact hm
      · next h₁ h₂ =>
        rw [List.pairwise_cons]
        refine ⟨fun d hd => ?_, ih hm.2⟩
        rcases Memory.mem_put hd with rfl | hd
        · exact Nat.lt_of_le_of_ne (Nat.le_of_not_lt h₁) (Ne.symm h₂)
        · exact hm.1 d hd

/-- A read after a write: the byte written, and every other address as before. -/
theorem Memory.get_set :
    Memory.get font (Memory.set font m a v) e = if e = a then v else Memory.get font m e := by
  unfold Memory.get Memory.set
  split
  · next h => rw [Memory.lookup_erase]; split <;> simp_all
  · rw [Memory.lookup_put]; split <;> simp_all

/-- Writing keeps the canonical form. -/
theorem Memory.wf_set (hm : Memory.wf font m) (ha : a < Config.memSize) : Memory.wf font (Memory.set font m a v) := by
  unfold Memory.set
  split
  · exact ⟨hm.1.sublist Memory.erase_sublist, fun c hc => hm.2 c (Memory.erase_sublist.subset hc)⟩
  · next h =>
    refine ⟨Memory.pairwise_put hm.1, fun c hc => ?_⟩
    rcases Memory.mem_put hc with rfl | hc
    · exact ⟨ha, h⟩
    · exact hm.2 c hc

@[simp] theorem Memory.wf_nil : Memory.wf font [] := ⟨List.Pairwise.nil, fun _ hc => absurd hc (List.not_mem_nil)⟩

@[simp] theorem Memory.get_nil : Memory.get font [] a = Memory.unlisted font a := rfl

theorem Memory.lookup_of_mem {c : Host.Cell} (hm : m.Pairwise fun c d => c.1 < d.1) (hc : c ∈ m) :
    Memory.lookup m c.1 = some c.2 := by
  induction m with
  | nil => exact absurd hc (List.not_mem_nil)
  | cons d m ih =>
    rw [List.pairwise_cons] at hm
    simp only [Memory.lookup]
    rcases List.mem_cons.1 hc with rfl | hc
    · exact if_pos rfl
    · rw [if_neg (Nat.ne_of_lt (hm.1 c hc))]; exact ih hm.2 hc

/-- Two canonical memories that read alike are equal: equal memories are equal data. -/
theorem Memory.ext_of_get (hm : Memory.wf font m) (hm' : Memory.wf font m')
    (h : ∀ e, Memory.get font m e = Memory.get font m' e) : m = m' := by
  have key : ∀ {p q : List Host.Cell}, Memory.wf font p → Memory.wf font q →
      (∀ e, Memory.get font p e = Memory.get font q e) → ∀ c ∈ p, c ∈ q := by
    intro p q hp hq hpq c hc
    have hl := hpq c.1
    simp only [Memory.get, Memory.lookup_of_mem hp.1 hc, Option.getD_some] at hl
    have hn := (hp.2 c hc).2
    cases hq' : Memory.lookup q c.1 with
    | none => rw [hq', Option.getD_none] at hl; exact absurd hl hn
    | some w =>
      rw [hq', Option.getD_some] at hl
      have mem_of : ∀ {q : List Host.Cell} {w}, Memory.lookup q c.1 = some w → (c.1, w) ∈ q := by
        intro q
        induction q with
        | nil => intro w hw; simp [Memory.lookup] at hw
        | cons d q ih =>
          intro w hw
          simp only [Memory.lookup] at hw
          split at hw
          · next hd => cases hw; rw [← hd]; exact List.mem_cons_self ..
          · exact List.mem_cons_of_mem _ (ih hw)
      have := mem_of hq'
      rwa [← hl] at this
  refine List.Perm.eq_of_pairwise (le := fun c d : Host.Cell => c.1 < d.1) ?_ hm.1 hm'.1 ?_
  · intro c d _ _ h₁ h₂; exact absurd h₁ (Nat.lt_asymm h₂)
  · have nodup : ∀ {p : List Host.Cell}, p.Pairwise (fun c d => c.1 < d.1) → p.Nodup := fun hp =>
      hp.imp fun h he => by rw [he] at h; exact Nat.lt_irrefl _ h
    exact (List.perm_ext_iff_of_nodup (nodup hm.1) (nodup hm'.1)).2 fun c =>
      ⟨key hm hm' h c, key hm' hm (fun e => (h e).symm) c⟩

/-! The same laws for the state. -/

/-- A read of a written state (R41, R42). -/
theorem State.readByte_writeByte (s : State) (a b : Addr) (v : Byte) :
    (s.writeByte a v).readByte b = if b = a then v else s.readByte b := by
  simp only [State.readByte, State.writeByte_mem, State.writeByte_font, Memory.get_set]
  split <;> split <;> simp_all [BitVec.toNat_inj]

theorem State.inv_writeByte {s : State} (hs : s.Inv) (a : Addr) (v : Byte) : (s.writeByte a v).Inv :=
  Memory.wf_set hs a.isLt

end Sys2Proof.Machine
end

