-- ==== Sys2Proof/Laws/Ops.lean ====
section
/-! SUPPORT. One lemma or two for each shared operation, which say everything it can do, so that no later proof unfolds
it. -/

namespace Sys2Proof.Machine

/-! Registers and keys. -/

theorem State.reg_setReg (s : State) (x y : Reg) (b : Byte) : (s.setReg x b).reg y = if y = x then b else s.reg y := by
  simp only [State.reg, State.setReg_v, Vector.getElem_set, Fin.val_inj, eq_comm]

@[simp] theorem State.reg_setReg_self (s : State) (x : Reg) (b : Byte) : (s.setReg x b).reg x = b := by
  rw [State.reg_setReg, if_pos rfl]

theorem State.reg_setReg_of_ne (s : State) {x y : Reg} (h : y ≠ x) (b : Byte) : (s.setReg x b).reg y = s.reg y := by
  rw [State.reg_setReg, if_neg h]

theorem State.key_setKey (s : State) (k j : Reg) (p : Bool) : (s.setKey k p).key j = if j = k then p else s.key j := by
  simp only [State.key, State.setKey_keys, Vector.getElem_set, Fin.val_inj, eq_comm]

/-- What an instruction that writes VX and then VF leaves in each register (R15). -/
theorem State.reg_setRegFlag (s : State) (x y : Reg) (b : Byte) (c : Bool) :
    (s.setRegFlag x b c).reg y = if y = 15 then flagByte c else if y = x then b else s.reg y := by
  simp only [State.setRegFlag, State.reg_setReg, regVF]

theorem State.setReg_eq (s : State) (x : Reg) (b : Byte) : s.setReg x b = { s with v := (s.setReg x b).v } := rfl

theorem State.setRegFlag_eq (s : State) (x : Reg) (b : Byte) (c : Bool) :
    s.setRegFlag x b c = { s with v := (s.setRegFlag x b c).v } := rfl

/-- What an instruction that writes VX alone leaves in each register. -/
theorem State.reg_loadReg (s : State) (x y : Reg) (b : Byte) : (s.loadReg x b).reg y = if y = x then b else s.reg y :=
  State.reg_setReg s x y b

/-- It changes the registers and `pc` alone. -/
theorem State.loadReg_eq (s : State) (x : Reg) (b : Byte) :
    s.loadReg x b = { s with v := (s.loadReg x b).v, pc := s.pc2 } := rfl

/-- What an instruction that writes VX and a flag leaves in each register (R15). -/
theorem State.reg_loadRegFlag (s : State) (x y : Reg) (b : Byte) (c : Bool) :
    (s.loadRegFlag x b c).reg y = if y = 15 then flagByte c else if y = x then b else s.reg y :=
  State.reg_setRegFlag s x y b c

/-- It changes the registers and `pc` alone. -/
theorem State.loadRegFlag_eq (s : State) (x : Reg) (b : Byte) (c : Bool) :
    s.loadRegFlag x b c = { s with v := (s.loadRegFlag x b c).v, pc := s.pc2 } := rfl

theorem flagByte_eq_zero_or_one (c : Bool) : flagByte c = 0x00#8 ∨ flagByte c = 0x01#8 := by
  cases c
  · exact Or.inl rfl
  · exact Or.inr rfl

theorem lowBit_eq (a : Byte) : (if lowBit a = true then 1 else 0) = a.toNat % 2 := by
  simp only [lowBit, BitVec.getLsbD, Nat.testBit_zero, decide_eq_true_eq]
  split <;> omega

theorem highBit_eq (a : Byte) : (if highBit a = true then 1 else 0) = a.toNat / 128 := by
  have := a.isLt
  simp only [highBit, BitVec.getLsbD, Nat.testBit_eq_decide_div_mod_eq, decide_eq_true_eq]
  split <;> omega

@[simp] theorem toNat_flagByte (c : Bool) : (flagByte c).toNat = if c then 1 else 0 := by cases c <;> rfl

/-! The program counter. -/

theorem State.toNat_pc2 (s : State) : s.pc2.toNat = (s.pc.toNat + 2) % 4096 := BitVec.toNat_add ..

/-- A skip changes `pc` alone, to pc0 + 4 or pc0 + 2 (R86). -/
theorem State.skipIf_eq (s : State) (c : Bool) : s.skipIf c = { s with pc := if c then s.pc2 + 2#12 else s.pc2 } := by
  cases c <;> rfl

/-! The call stack. -/

/-- A push below a full stack (R103). -/
theorem State.push_of_lt {s : State} (h : s.sp.val < 16) (a : Addr) :
    s.push a = .ok { s with stack := s.stack.set s.sp.val a, sp := ⟨s.sp.val + 1, Nat.succ_lt_succ h⟩ } := dif_pos h

/-- A push on a full stack (R201). -/
theorem State.push_of_full {s : State} (h : s.sp.val = 16) (a : Addr) : s.push a = .error .stackOverflow :=
  dif_neg (by omega)

/-- A pop of a stack that is not empty (R104). -/
theorem State.pop_of_pos {s : State} (h : 0 < s.sp.val) :
    ∃ (hb : s.sp.val - 1 < 16), s.pop =
      .ok (s.stack[s.sp.val - 1], { s with sp := ⟨s.sp.val - 1, Nat.lt_succ_of_lt hb⟩ }) :=
  ⟨by have := s.sp.isLt; omega, dif_pos h⟩

/-- A pop of an empty stack (R202). -/
theorem State.pop_of_empty {s : State} (h : s.sp.val = 0) : s.pop = .error .stackUnderflow := dif_neg (by omega)

/-! Effective addresses. -/

theorem State.toNat_ea (s : State) (k : Nat) : (s.ea k).toNat = (s.idx.toNat + k) % 4096 := by
  simp only [State.ea, BitVec.toNat_add, BitVec.toNat_ofNat]
  omega

theorem State.ea_inj (s : State) {j k : Nat} (hj : j < 4096) (hk : k < 4096) : s.ea j = s.ea k ↔ j = k := by
  rw [← BitVec.toNat_inj, State.toNat_ea, State.toNat_ea]
  have := s.idx.isLt
  omega

theorem regAt_val (k : Reg) : regAt k.val = k := by
  simp only [regAt, Fin.ofNat, Nat.mod_eq_of_lt k.isLt]

/-! Multi-cell stores and loads. -/

theorem State.writeByte_eq (s : State) (a : Addr) (b : Byte) : s.writeByte a b = { s with mem := (s.writeByte a b).mem } :=
  rfl

/-- A dump of `n` registers changes memory alone. -/
theorem State.dumpRegs_succ (s : State) (n : Nat) :
    s.dumpRegs (n + 1) = (s.dumpRegs n).writeByte (s.ea n) (s.reg (regAt n)) := by
  simp only [State.dumpRegs, List.range_succ, List.foldl_append, List.foldl_cons, List.foldl_nil]

theorem State.dumpRegs_eq (s : State) (n : Nat) : s.dumpRegs n = { s with mem := (s.dumpRegs n).mem } := by
  induction n with
  | zero => rfl
  | succ n ih => rw [State.dumpRegs_succ, State.writeByte_eq, ih]

theorem State.inv_dumpRegs {s : State} (hs : s.Inv) (n : Nat) : (s.dumpRegs n).Inv := by
  induction n with
  | zero => exact hs
  | succ n ih => rw [State.dumpRegs_succ]; exact State.inv_writeByte ih _ _

/-- What a dump of at most 16 registers leaves at the addresses it stores to (R176). -/
theorem State.readByte_dumpRegs_ea (s : State) {n k : Nat} (hn : n ≤ 16) (hk : k < n) :
    (s.dumpRegs n).readByte (s.ea k) = s.reg (regAt k) := by
  induction n with
  | zero => omega
  | succ n ih =>
    rw [State.dumpRegs_succ, State.readByte_writeByte]
    by_cases h : k = n
    · subst h; rw [if_pos rfl]
    · rw [if_neg (by rw [State.ea_inj s (by omega) (by omega)]; exact h)]
      exact ih (by omega) (by omega)

/-- A dump leaves every other address alone (R176). -/
theorem State.readByte_dumpRegs_other (s : State) {n : Nat} {a : Addr} (h : ∀ k < n, a ≠ s.ea k) :
    (s.dumpRegs n).readByte a = s.readByte a := by
  induction n with
  | zero => rfl
  | succ n ih =>
    rw [State.dumpRegs_succ, State.readByte_writeByte, if_neg (h n (Nat.lt_succ_self n))]
    exact ih fun k hk => h k (Nat.lt_succ_of_lt hk)

theorem State.loadRegs_succ (s : State) (n : Nat) :
    s.loadRegs (n + 1) = (s.loadRegs n).setReg (regAt n) (s.readByte (s.ea n)) := by
  simp only [State.loadRegs, List.range_succ, List.foldl_append, List.foldl_cons, List.foldl_nil]

/-- A load of `n` registers changes the registers alone. -/
theorem State.loadRegs_eq (s : State) (n : Nat) : s.loadRegs n = { s with v := (s.loadRegs n).v } := by
  induction n with
  | zero => rfl
  | succ n ih => rw [State.loadRegs_succ, State.setReg_eq, ih]

/-- What a load of at most 16 registers leaves in each register (R177). -/
theorem State.reg_loadRegs (s : State) {n : Nat} (hn : n ≤ 16) (r : Reg) :
    (s.loadRegs n).reg r = if r.val < n then s.readByte (s.ea r.val) else s.reg r := by
  induction n with
  | zero => rfl
  | succ n ih =>
    rw [State.loadRegs_succ, State.reg_setReg, ih (by omega)]
    by_cases h : r.val = n
    · have : r = regAt n := by rw [← h, regAt_val]
      rw [if_pos this, if_pos (by omega), h]
    · have : r ≠ regAt n := by
        intro hr
        apply h
        rw [hr, regAt, Fin.ofNat]
        exact Nat.mod_eq_of_lt (by omega)
      rw [if_neg this]
      split <;> split <;> first | rfl | omega

/-- The three digits leave memory alone but for three addresses, and change memory alone (R174). -/
theorem State.readByte_storeDigits (s : State) (b : Byte) (a : Addr) :
    (s.storeDigits b).readByte a =
      if a = s.ea 2 then units b else if a = s.ea 1 then tens b else if a = s.ea 0 then hundreds b else s.readByte a := by
  simp only [State.storeDigits, State.readByte_writeByte]

theorem State.storeDigits_eq (s : State) (b : Byte) : s.storeDigits b = { s with mem := (s.storeDigits b).mem } := rfl

theorem State.inv_storeDigits {s : State} (hs : s.Inv) (b : Byte) : (s.storeDigits b).Inv :=
  State.inv_writeByte (State.inv_writeByte (State.inv_writeByte hs _ _) _ _) _ _

/-- Writing bytes changes memory alone. -/
theorem State.writeBytes_eq (s : State) (a : Addr) (bs : List Byte) :
    s.writeBytes a bs = { s with mem := (s.writeBytes a bs).mem } := by
  induction bs generalizing s a with
  | nil => rfl
  | cons b bs ih => rw [State.writeBytes, ih]; rfl

theorem State.inv_writeBytes {s : State} (hs : s.Inv) (a : Addr) (bs : List Byte) : (s.writeBytes a bs).Inv := by
  induction bs generalizing s a with
  | nil => exact hs
  | cons b bs ih => exact ih (State.inv_writeByte hs a b) _

/-- What bytes written from `a` on, short of the whole memory, leave at an address (R42, R44, R215). -/
theorem State.readByte_writeBytes (s : State) (a e : Addr) (bs : List Byte) (h : bs.length ≤ 4096) :
    (s.writeBytes a bs).readByte e = (bs[(e - a).toNat]?).getD (s.readByte e) := by
  induction bs generalizing s a with
  | nil => rfl
  | cons b bs ih =>
    simp only [List.length_cons] at h
    rw [State.writeBytes, ih _ _ (by omega), State.readByte_writeByte]
    by_cases he : e = a
    · subst he
      have h0 : (e - e).toNat = 0 := by simp
      have h1 : (e - (e + 1#12)).toNat = 4095 := by
        rw [show e - (e + 1#12) = 4095#12 from by simp]; rfl
      rw [h0, h1, if_pos rfl, List.getElem?_eq_none (by omega)]
      rfl
    · have hne : (e - a).toNat ≠ 0 := by
        intro h0
        apply he
        have : e - a = 0#12 := BitVec.eq_of_toNat_eq h0
        simpa [BitVec.sub_eq_iff_eq_add] using this
      have h1 : (e - a).toNat = (e - (a + 1#12)).toNat + 1 := by
        simp only [BitVec.toNat_sub, BitVec.toNat_add, BitVec.toNat_ofNat] at hne ⊢
        have := e.isLt
        have := a.isLt
        omega
      rw [if_neg he, h1, List.getElem?_cons_succ]

/-! The driver's operations. -/

theorem toNat_countDown (b : Byte) : (countDown b).toNat = b.toNat - 1 := by
  unfold countDown
  split
  · next h => subst h; rfl
  · next h =>
    have : b.toNat ≠ 0 := fun h0 => h (BitVec.eq_of_toNat_eq h0)
    have := b.isLt
    rw [BitVec.toNat_sub]
    simp only [BitVec.toNat_ofNat]
    omega

theorem State.inv_initial (font : Vector Byte Config.fontLen) : (State.initial font).Inv := Memory.wf_nil

end Sys2Proof.Machine
end

