-- ==== Sys2Proof/Laws/PerInstr.lean ====
section
/-! SUPPORT. The per-instruction family TableMatch: the encoder agrees with the columns "mask" and "match" of the opcode
map (30_encoding.md R65 to R69), row by row. -/

namespace Sys2Proof.Laws.TableMatch
open Sys2Proof

/-- The mask and the match of the row an instruction stands for (spec/opcode_table.json). -/
def row : Instr → Word × Word
  | .sentinel => (0xFFFF, 0x0000)
  | .cls => (0xFFFF, 0x00E0)
  | .ret => (0xFFFF, 0x00EE)
  | .jp _ => (0xF000, 0x1000)
  | .call _ => (0xF000, 0x2000)
  | .seImm _ _ => (0xF000, 0x3000)
  | .sneImm _ _ => (0xF000, 0x4000)
  | .seReg _ _ _ => (0xF000, 0x5000)
  | .ldImm _ _ => (0xF000, 0x6000)
  | .addImm _ _ => (0xF000, 0x7000)
  | .ldReg _ _ => (0xF00F, 0x8000)
  | .orReg _ _ => (0xF00F, 0x8001)
  | .andReg _ _ => (0xF00F, 0x8002)
  | .xorReg _ _ => (0xF00F, 0x8003)
  | .addReg _ _ => (0xF00F, 0x8004)
  | .sub _ _ => (0xF00F, 0x8005)
  | .shr _ _ => (0xF00F, 0x8006)
  | .subn _ _ => (0xF00F, 0x8007)
  | .shl _ _ => (0xF00F, 0x800E)
  | .sneReg _ _ _ => (0xF000, 0x9000)
  | .ldI _ => (0xF000, 0xA000)
  | .jpV0 _ => (0xF000, 0xB000)
  | .rnd _ _ => (0xF000, 0xC000)
  | .drw _ _ _ => (0xF000, 0xD000)
  | .skp _ => (0xF0FF, 0xE09E)
  | .sknp _ => (0xF0FF, 0xE0A1)
  | .ldVxDt _ => (0xF0FF, 0xF007)
  | .ldVxK _ => (0xF0FF, 0xF00A)
  | .ldDtVx _ => (0xF0FF, 0xF015)
  | .ldStVx _ => (0xF0FF, 0xF018)
  | .addI _ => (0xF0FF, 0xF01E)
  | .ldF _ => (0xF0FF, 0xF029)
  | .ldB _ => (0xF0FF, 0xF033)
  | .ldMemVx _ => (0xF0FF, 0xF055)
  | .ldVxMem _ => (0xF0FF, 0xF065)
  | .unrecognised0 _ => (0xF000, 0x0000)
  | .unrecognised8 _ _ _ => (0xF000, 0x8000)
  | .unrecognisedE _ _ => (0xF000, 0xE000)
  | .unrecognisedF _ _ => (0xF000, 0xF000)

/-- The word of an instruction, under the mask of its row, is the match of its row. -/
def Statement (i : Instr) : Prop := encode i &&& (row i).1 = (row i).2

theorem mask_fmtNNN (c : BitVec 4) (a : Addr) : fmtNNN c a &&& 0xF000#16 = fmtNNN c 0#12 := by
  refine BitVec.eq_of_getLsbD_eq fun i hi => ?_
  simp only [fmtNNN, BitVec.getLsbD_and, BitVec.getLsbD_append]
  by_cases h : i < 12
  · have : (0xF000#16).getLsbD i = false := by interval_cases i <;> rfl
    simp [h, this]
  · have : (0xF000#16).getLsbD i = true := by interval_cases i <;> rfl
    simp [h, this]

theorem mask_fmtXKK (c : BitVec 4) (x : Reg) (kk : Byte) : fmtXKK c x kk &&& 0xF0FF#16 = fmtXKK c 0 kk := by
  refine BitVec.eq_of_getLsbD_eq fun i hi => ?_
  simp only [fmtXKK, BitVec.getLsbD_and, BitVec.getLsbD_append]
  by_cases h : i < 8
  · have : (0xF0FF#16).getLsbD i = true := by interval_cases i <;> rfl
    simp [h, this]
  · by_cases h' : i < 12
    · have : (0xF0FF#16).getLsbD i = false := by interval_cases i <;> rfl
      simp [h, this, show i - 8 < 4 by omega, Reg.bits]
    · have : (0xF0FF#16).getLsbD i = true := by interval_cases i <;> rfl
      simp [h, this, show ¬ i - 8 < 4 by omega]

theorem mask_fmtXYN (c : BitVec 4) (x y : Reg) (n : BitVec 4) : fmtXYN c x y n &&& 0xF00F#16 = fmtXYN c 0 0 n := by
  refine BitVec.eq_of_getLsbD_eq fun i hi => ?_
  simp only [fmtXYN, BitVec.getLsbD_and, BitVec.getLsbD_append]
  by_cases h : i < 4
  · have : (0xF00F#16).getLsbD i = true := by interval_cases i <;> rfl
    simp [h, this]
  · by_cases h' : i < 12
    · have : (0xF00F#16).getLsbD i = false := by interval_cases i <;> rfl
      by_cases h'' : i - 4 < 4 <;> simp [h, this, h'', show i - 4 - 4 < 4 by omega, Reg.bits]
    · have : (0xF00F#16).getLsbD i = true := by interval_cases i <;> rfl
      simp [h, this, show ¬ i - 4 < 4 by omega, show ¬ i - 4 - 4 < 4 by omega]

theorem category_fmtXKK (c : BitVec 4) (x : Reg) (kk : Byte) : fmtXKK c x kk &&& 0xF000#16 = fmtNNN c 0#12 := by
  rw [fmtXKK_eq, mask_fmtNNN]

theorem category_fmtXYN (c : BitVec 4) (x y : Reg) (n : BitVec 4) : fmtXYN c x y n &&& 0xF000#16 = fmtNNN c 0#12 := by
  rw [fmtXYN_eq, category_fmtXKK]

theorem sentinel : Statement .sentinel := rfl
theorem cls : Statement .cls := rfl
theorem ret : Statement .ret := rfl
theorem jp (nnn : Addr) : Statement (.jp nnn) := mask_fmtNNN _ _
theorem call (nnn : Addr) : Statement (.call nnn) := mask_fmtNNN _ _
theorem seImm (x : Reg) (kk : Byte) : Statement (.seImm x kk) := category_fmtXKK _ _ _
theorem sneImm (x : Reg) (kk : Byte) : Statement (.sneImm x kk) := category_fmtXKK _ _ _
theorem seReg (x y : Reg) (n : BitVec 4) : Statement (.seReg x y n) := category_fmtXYN _ _ _ _
theorem ldImm (x : Reg) (kk : Byte) : Statement (.ldImm x kk) := category_fmtXKK _ _ _
theorem addImm (x : Reg) (kk : Byte) : Statement (.addImm x kk) := category_fmtXKK _ _ _
theorem ldReg (x y : Reg) : Statement (.ldReg x y) := mask_fmtXYN _ _ _ _
theorem orReg (x y : Reg) : Statement (.orReg x y) := mask_fmtXYN _ _ _ _
theorem andReg (x y : Reg) : Statement (.andReg x y) := mask_fmtXYN _ _ _ _
theorem xorReg (x y : Reg) : Statement (.xorReg x y) := mask_fmtXYN _ _ _ _
theorem addReg (x y : Reg) : Statement (.addReg x y) := mask_fmtXYN _ _ _ _
theorem sub (x y : Reg) : Statement (.sub x y) := mask_fmtXYN _ _ _ _
theorem shr (x y : Reg) : Statement (.shr x y) := mask_fmtXYN _ _ _ _
theorem subn (x y : Reg) : Statement (.subn x y) := mask_fmtXYN _ _ _ _
theorem shl (x y : Reg) : Statement (.shl x y) := mask_fmtXYN _ _ _ _
theorem sneReg (x y : Reg) (n : BitVec 4) : Statement (.sneReg x y n) := category_fmtXYN _ _ _ _
theorem ldI (nnn : Addr) : Statement (.ldI nnn) := mask_fmtNNN _ _
theorem jpV0 (nnn : Addr) : Statement (.jpV0 nnn) := mask_fmtNNN _ _
theorem rnd (x : Reg) (kk : Byte) : Statement (.rnd x kk) := category_fmtXKK _ _ _
theorem drw (x y : Reg) (n : BitVec 4) : Statement (.drw x y n) := category_fmtXYN _ _ _ _
theorem skp (x : Reg) : Statement (.skp x) := mask_fmtXKK _ _ _
theorem sknp (x : Reg) : Statement (.sknp x) := mask_fmtXKK _ _ _
theorem ldVxDt (x : Reg) : Statement (.ldVxDt x) := mask_fmtXKK _ _ _
theorem ldVxK (x : Reg) : Statement (.ldVxK x) := mask_fmtXKK _ _ _
theorem ldDtVx (x : Reg) : Statement (.ldDtVx x) := mask_fmtXKK _ _ _
theorem ldStVx (x : Reg) : Statement (.ldStVx x) := mask_fmtXKK _ _ _
theorem addI (x : Reg) : Statement (.addI x) := mask_fmtXKK _ _ _
theorem ldF (x : Reg) : Statement (.ldF x) := mask_fmtXKK _ _ _
theorem ldB (x : Reg) : Statement (.ldB x) := mask_fmtXKK _ _ _
theorem ldMemVx (x : Reg) : Statement (.ldMemVx x) := mask_fmtXKK _ _ _
theorem ldVxMem (x : Reg) : Statement (.ldVxMem x) := mask_fmtXKK _ _ _
theorem unrecognised0 (nnn : Addr) : Statement (.unrecognised0 nnn) := mask_fmtNNN _ _
theorem unrecognised8 (x y : Reg) (n : BitVec 4) : Statement (.unrecognised8 x y n) := category_fmtXYN _ _ _ _
theorem unrecognisedE (x : Reg) (kk : Byte) : Statement (.unrecognisedE x kk) := category_fmtXKK _ _ _
theorem unrecognisedF (x : Reg) (kk : Byte) : Statement (.unrecognisedF x kk) := category_fmtXKK _ _ _

end Sys2Proof.Laws.TableMatch
end

