-- ==== Sys2Proof/Laws/Screen.lean ====
section
/-! SUPPORT. What the blit loop of 43_display.md R143 does: which pixels it toggles and when it reports a collision. The
columns of a row are distinct, and so are the rows of a sprite (R144 (a)). -/

namespace Sys2Proof.Machine

theorem Display.get_toggle (d : Display) (r q : Fin 32) (c p : Fin 64) :
    Display.get (Display.toggle d r c) q p = if q = r ∧ p = c then !Display.get d r c else Display.get d q p := by
  simp only [Display.get, Display.toggle, Vector.getElem_set, Fin.val_inj, eq_comm (a := r)]
  by_cases h : q = r
  · subst h
    simp only [if_true, true_and, Vector.getElem_set, Fin.val_inj, eq_comm (a := c)]
  · simp only [h, if_false, false_and]

theorem spriteCol_inj (x0 : Nat) {i j : Nat} (hi : i < 64) (hj : j < 64) : spriteCol x0 i = spriteCol x0 j ↔ i = j := by
  simp only [spriteCol, ← Fin.val_inj, Fin.ofNat]
  omega

theorem spriteRow_inj (y0 : Nat) {i j : Nat} (hi : i < 32) (hj : j < 32) : spriteRow y0 i = spriteRow y0 j ↔ i = j := by
  simp only [spriteRow, ← Fin.val_inj, Fin.ofNat]
  omega

/-- The first `m` bits of a sprite row. -/
def plotRowPrefix (d : Blit) (b : Byte) (row : Fin 32) (x0 m : Nat) : Blit :=
  (List.range m).foldl (fun e c => plotBit e (spriteBit b c) row (spriteCol x0 c)) d

theorem plotRowPrefix_succ (d : Blit) (b : Byte) (row : Fin 32) (x0 m : Nat) :
    plotRowPrefix d b row x0 (m + 1) =
      plotBit (plotRowPrefix d b row x0 m) (spriteBit b m) row (spriteCol x0 m) := by
  simp only [plotRowPrefix, List.range_succ, List.foldl_append, List.foldl_cons, List.foldl_nil]

/-- Column `c` lies under one of the first `m` bits of a sprite row that is 1. -/
def RowHit (b : Byte) (x0 m : Nat) (c : Fin 64) : Prop := ∃ j < m, spriteCol x0 j = c ∧ spriteBit b j = true

theorem RowHit_succ (b : Byte) (x0 m : Nat) (c : Fin 64) :
    RowHit b x0 (m + 1) c ↔ RowHit b x0 m c ∨ (spriteCol x0 m = c ∧ spriteBit b m = true) := by
  simp only [RowHit, Nat.lt_succ_iff_lt_or_eq, or_and_right, exists_or, exists_eq_left]

/-- The pixels and the collision after the first `m` bits of a row. -/
theorem plotRowPrefix_spec (d : Blit) (b : Byte) (row : Fin 32) (x0 : Nat) {m : Nat} (hm : m ≤ 8) :
    (∀ c, RowHit b x0 m c →
      Display.get (plotRowPrefix d b row x0 m).1 row c = !Display.get d.1 row c) ∧
    (∀ q c, ¬ (q = row ∧ RowHit b x0 m c) →
      Display.get (plotRowPrefix d b row x0 m).1 q c = Display.get d.1 q c) ∧
    ((plotRowPrefix d b row x0 m).2 = true ↔
      d.2 = true ∨ ∃ c, RowHit b x0 m c ∧ Display.get d.1 row c = true) := by
  induction m with
  | zero => simp [plotRowPrefix, RowHit]
  | succ m ih =>
    obtain ⟨ih₁, ih₂, ih₃⟩ := ih (by omega)
    have fresh : ¬ RowHit b x0 m (spriteCol x0 m) := by
      rintro ⟨j, hj, hc, -⟩
      rw [spriteCol_inj x0 (by omega) (by omega)] at hc
      omega
    have old : Display.get (plotRowPrefix d b row x0 m).1 row (spriteCol x0 m) = Display.get d.1 row (spriteCol x0 m) :=
      ih₂ _ _ fun h => fresh h.2
    rw [plotRowPrefix_succ]
    cases hb : spriteBit b m with
    | false =>
      simp only [plotBit, Bool.false_eq_true, if_false, RowHit_succ, hb, and_false, or_false]
      exact ⟨ih₁, ih₂, ih₃⟩
    | true =>
      simp only [plotBit, if_true, RowHit_succ, hb, and_true, Display.get_toggle, Bool.or_eq_true, ih₃, old, true_and]
      refine ⟨fun c hc => ?_, fun q c hc => ?_, ?_⟩
      · by_cases h : c = spriteCol x0 m
        · rw [if_pos h, h]
        · rw [if_neg h]
          exact ih₁ c (hc.resolve_right fun e => h e.symm)
      · rw [if_neg fun h => hc ⟨h.1, Or.inr h.2.symm⟩]
        exact ih₂ q c fun h => hc ⟨h.1, Or.inl h.2⟩
      · constructor
        · rintro ((h | ⟨c, h, h'⟩) | h)
          · exact Or.inl h
          · exact Or.inr ⟨c, Or.inl h, h'⟩
          · exact Or.inr ⟨_, Or.inr rfl, h⟩
        · rintro (h | ⟨c, h | h, h'⟩)
          · exact Or.inl (Or.inl h)
          · exact Or.inl (Or.inr ⟨c, h, h'⟩)
          · exact Or.inr (h ▸ h')

/-- Pixel `(q, c)` lies under a 1 bit of the first `n` rows of a sprite at I with its origin at `(x0, y0)` (R142). -/
def State.SpriteHit (s : State) (x0 y0 n : Nat) (q : Fin 32) (c : Fin 64) : Prop :=
  ∃ k < n, spriteRow y0 k = q ∧ RowHit (s.readByte (s.ea k)) x0 8 c

theorem State.SpriteHit_succ (s : State) (x0 y0 n : Nat) (q : Fin 32) (c : Fin 64) :
    s.SpriteHit x0 y0 (n + 1) q c ↔
      s.SpriteHit x0 y0 n q c ∨ (spriteRow y0 n = q ∧ RowHit (s.readByte (s.ea n)) x0 8 c) := by
  simp only [State.SpriteHit, Nat.lt_succ_iff_lt_or_eq, or_and_right, exists_or, exists_eq_left]

theorem State.blit_succ (s : State) (x0 y0 n : Nat) :
    s.blit x0 y0 (n + 1) = plotRowPrefix (s.blit x0 y0 n) (s.readByte (s.ea n)) (spriteRow y0 n) x0 8 := by
  simp only [State.blit, List.range_succ, List.foldl_append, List.foldl_cons, List.foldl_nil]
  rfl

/-- What a blit of at most 32 rows does: the pixels under a 1 bit are toggled, no other, and the collision is that one
of them was 1 before (R144 (a), (b)). -/
theorem State.blit_spec (s : State) (x0 y0 : Nat) {n : Nat} (hn : n ≤ 32) :
    (∀ q c, s.SpriteHit x0 y0 n q c → Display.get (s.blit x0 y0 n).1 q c = !s.pixel q c) ∧
    (∀ q c, ¬ s.SpriteHit x0 y0 n q c → Display.get (s.blit x0 y0 n).1 q c = s.pixel q c) ∧
    ((s.blit x0 y0 n).2 = true ↔ ∃ q c, s.SpriteHit x0 y0 n q c ∧ s.pixel q c = true) := by
  induction n with
  | zero => simp [State.blit, State.SpriteHit, State.pixel, Display.get]
  | succ n ih =>
    obtain ⟨ih₁, ih₂, ih₃⟩ := ih (by omega)
    have fresh : ∀ c, ¬ s.SpriteHit x0 y0 n (spriteRow y0 n) c := by
      rintro c ⟨k, hk, hr, -⟩
      rw [spriteRow_inj y0 (by omega) (by omega)] at hr
      omega
    have old : ∀ c, Display.get (s.blit x0 y0 n).1 (spriteRow y0 n) c = s.pixel (spriteRow y0 n) c :=
      fun c => ih₂ _ _ (fresh c)
    obtain ⟨r₁, r₂, r₃⟩ :=
      plotRowPrefix_spec (s.blit x0 y0 n) (s.readByte (s.ea n)) (spriteRow y0 n) x0 (Nat.le_refl 8)
    rw [State.blit_succ]
    refine ⟨fun q c h => ?_, fun q c h => ?_, ?_⟩
    · rw [State.SpriteHit_succ] at h
      by_cases hq : q = spriteRow y0 n ∧ RowHit (s.readByte (s.ea n)) x0 8 c
      · rw [hq.1, r₁ c hq.2, old]
      · rw [r₂ q c hq]
        exact ih₁ q c (h.resolve_right fun e => hq ⟨e.1.symm, e.2⟩)
    · rw [State.SpriteHit_succ, not_or] at h
      rw [r₂ q c fun e => h.2 ⟨e.1.symm, e.2⟩]
      exact ih₂ q c h.1
    · simp only [r₃, ih₃, State.SpriteHit_succ, old]
      constructor
      · rintro (⟨q, c, h, h'⟩ | ⟨c, h, h'⟩)
        · exact ⟨q, c, Or.inl h, h'⟩
        · exact ⟨_, c, Or.inr ⟨rfl, h⟩, h'⟩
      · rintro ⟨q, c, h | ⟨h, h'⟩, hp⟩
        · exact Or.inl ⟨q, c, h, hp⟩
        · exact Or.inr ⟨c, h', h ▸ hp⟩

/-- Displays with equal pixels are equal. -/
theorem Display.ext_get {d e : Display} (h : ∀ r c, Display.get d r c = Display.get e r c) : d = e :=
  Vector.ext fun i hi => Vector.ext fun j hj => h ⟨i, hi⟩ ⟨j, hj⟩

@[simp] theorem Display.get_clear (r : Fin 32) (c : Fin 64) : Display.get Display.clear r c = false := by
  simp [Display.get, Display.clear]

end Sys2Proof.Machine
end

