-- ==== Sys2Proof/Laws/Step.lean ====
section
/-! SUPPORT. The driver's stream and what a step is by its next operation, sequences of cycles, and the runs from a
state that a step leaves as it is. -/

namespace Sys2Proof.Machine

/-! The stream, by its form. -/

@[simp] theorem Driver.head_cons (op : Operation) (ops : List Operation) (str : Stream) :
    Driver.head ⟨op :: ops, str⟩ = op := rfl

@[simp] theorem Driver.rest_cons (op : Operation) (ops : List Operation) (str : Stream) :
    Driver.rest ⟨op :: ops, str⟩ = ⟨ops, str⟩ := rfl

@[simp] theorem Driver.head_free (n : Nat) : Driver.head ⟨[], .free n⟩ = Config.operation n := rfl

@[simp] theorem Driver.rest_free (n : Nat) : Driver.rest ⟨[], .free n⟩ = ⟨[], .free (n + 1)⟩ := rfl

@[simp] theorem Driver.head_cycles : Driver.cycles.head = .cycle := rfl

@[simp] theorem Driver.rest_cycles : Driver.cycles.rest = Driver.cycles := rfl

/-- A loop that comes to its end begins again. -/
theorem Driver.loop_again (ops : List Operation) (h : ops ≠ []) :
    Driver.head ⟨[], .loop ops⟩ = Driver.head ⟨ops, .loop ops⟩ ∧
    Driver.rest ⟨[], .loop ops⟩ = Driver.rest ⟨ops, .loop ops⟩ := by
  cases ops with
  | nil => exact absurd rfl h
  | cons op ops => exact ⟨rfl, rfl⟩

/-! A step, by the next operation. -/

/-- A step is the next operation, on the state with it taken off. -/
theorem step_of_next {s : State} {op : Operation} (h : s.nextOperation = op) : step s = applyOperation op s.taken := by
  rw [step, h]

/-- When the driver issues cycles alone a step is a cycle of the state itself. -/
theorem step_of_cycles {s : State} (h : s.driver = Driver.cycles) : step s = cycle s := by
  have ht : s.taken = s := by cases s; cases h; rfl
  rw [step, ht, State.nextOperation, h]
  rfl

theorem run_of_fixed (M : Host.Core) {s : M.State} (h : M.step s = .next s) (k : Nat) : M.run k s = .next s := by
  induction k with
  | zero => rfl
  | succ k ih => rw [Host.Core.run, h]; exact ih

/-! Sequences of cycles. -/

/-- Cycles after cycles that did not fault are one sequence. -/
theorem runCycles_add {s t : State} {j : Nat} (h : runCycles j s = .next t) (k : Nat) :
    runCycles (j + k) s = runCycles k t := by
  induction j generalizing s with
  | zero => cases h; rw [Nat.zero_add]
  | succ j ih =>
    rw [Nat.succ_add]
    rw [runCycles] at h ⊢
    cases hc : cycle s with
    | next u => rw [hc] at h; exact ih h
    | fault f => rw [hc] at h; cases h
    | refused r => rw [hc] at h; cases h

/-- A state that one cycle leaves as it is, whatever the entropy source holds, recurs. -/
theorem State.recurs_of_fixed {s : State}
    (h : ∀ e d, cycle { s with entropy := e, draws := d } = .next { s with entropy := e, draws := d }) : s.Recurs :=
  fun e d => ⟨1, _, Nat.one_pos, by rw [runCycles, h]; rfl, by cases s; rfl⟩

end Sys2Proof.Machine
end

