-- ==== Sys2Proof/Tests/Slice0.lean ====
section
/-! SUPPORT. The model's own tests. Part 1: well-formedness refuses. Part 2: decoding, every constructor by a word
written out from the encoding tables of 30_encoding.md. Part 3: one step of every instruction, with the expected values
of 95_test_vectors.md (the vector's name stands in the docstring). Part 4: the driver's operations. Part 5: for every
obligation with hypotheses, a concrete state and operands that meet them. -/

namespace Sys2Proof.Tests
open Sys2Proof Sys2Proof.Machine Sys2Proof.Claims

set_option Elab.async false

/-! Helpers. -/

/-- The reset state with some registers set. -/
def start (regs : List (Reg × Byte)) : State := regs.foldl (fun s p => s.setReg p.1 p.2) State.reset

/-- A state with bytes stored from an address on. -/
def stored (s : State) (a : Addr) (bytes : List Byte) : State := s.writeBytes a bytes

/-- A state with some pixels toggled. -/
def lit (s : State) (pixels : List (Fin 32 × Fin 64)) : State :=
  s.setDisp (pixels.foldl (fun d p => Display.toggle d p.1 p.2) s.disp)

/-- Pixels that are to be lit, and pixels that are to be dark. -/
def pixelsAre (t : State) (ones zeros : List (Fin 32 × Fin 64)) : Bool :=
  ones.all (fun p => t.pixel p.1 p.2) && zeros.all fun p => !t.pixel p.1 p.2

/-- A property of the next state; false of a fault and of a refusal. -/
def onNext (o : Host.Outcome State Fault Refusal) (p : State → Bool) : Bool :=
  match o with
  | .next t => p t
  | .fault _ => false
  | .refused _ => false

/-- Whether an outcome is this fault. -/
def faults (o : Host.Outcome State Fault Refusal) (f : Fault) : Bool :=
  match o with
  | .next _ => false
  | .fault g => g == f
  | .refused _ => false

/-- A property of the state after one step that runs a word. -/
def after (w : Word) (s : State) (p : State → Bool) : Bool := onNext (step (s.placeWord w)) p

/-- Expected values of general registers. -/
def regsAre (t : State) (rs : List (Reg × Byte)) : Bool := rs.all fun p => t.reg p.1 == p.2

/-- Expected values of memory cells. -/
def bytesAre (t : State) (cs : List (Addr × Byte)) : Bool := cs.all fun p => t.readByte p.1 == p.2

/-! Part 1. Well-formedness. -/

/-- A catch-all constructor does not stand for 00E0, which the sub-table of category 0x0 holds (R65). -/
theorem test_illFormed_0 : WellFormed (.unrecognised0 0x0E0) = false := by decide

/-- Nor for 8124 (R67). -/
theorem test_illFormed_8 : WellFormed (.unrecognised8 1 2 0x4) = false := by decide

/-- Nor for E19E (R68). -/
theorem test_illFormed_E : WellFormed (.unrecognisedE 1 0x9E) = false := by decide

/-- Nor for F165 (R69). -/
theorem test_illFormed_F : WellFormed (.unrecognisedF 1 0x65) = false := by decide

/-- The well-formed neighbours of the four. -/
theorem test_wellFormed :
    (WellFormed (.unrecognised0 0x0E1) && WellFormed (.unrecognised8 1 2 0xF) && WellFormed (.unrecognisedE 1 0x9F) &&
      WellFormed (.unrecognisedF 1 0x64)) = true := by decide

/-! Part 2. Decoding: category, then the fields of R62 from high to low. -/

/-- Category 0x0, all 16 bits compared (R65); T-FD-3. -/
theorem test_decode_0 :
    decodeWord 0b0000000000000000 = .sentinel ∧ decodeWord 0b0000000011100000 = .cls ∧
    decodeWord 0b0000000011101110 = .ret ∧ decodeWord 0b0000000011100001 = .unrecognised0 0x0E1 := by decide

/-- Formats NNN of R66: 1, 2, A, B with NNN = 0xABC. -/
theorem test_decode_nnn :
    decodeWord 0b0001101010111100 = .jp 0xABC ∧ decodeWord 0b0010101010111100 = .call 0xABC ∧
    decodeWord 0b1010101010111100 = .ldI 0xABC ∧ decodeWord 0b1011101010111100 = .jpV0 0xABC := by decide

/-- Formats XKK of R66: 3, 4, 6, 7, C with X = 0xA, KK = 0x05. -/
theorem test_decode_xkk :
    decodeWord 0b0011101000000101 = .seImm 0xA 0x05 ∧ decodeWord 0b0100101000000101 = .sneImm 0xA 0x05 ∧
    decodeWord 0b0110101000000101 = .ldImm 0xA 0x05 ∧ decodeWord 0b0111101000000101 = .addImm 0xA 0x05 ∧
    decodeWord 0b1100101000000101 = .rnd 0xA 0x05 := by decide

/-- Formats XYN of R66: 5, 9, D with X = 1, Y = 2, N = 7. -/
theorem test_decode_xyn :
    decodeWord 0b0101000100100111 = .seReg 1 2 7 ∧ decodeWord 0b1001000100100111 = .sneReg 1 2 7 ∧
    decodeWord 0b1101000100100111 = .drw 1 2 7 := by decide

/-- The sub-table of category 0x8 (R67), X = 1, Y = 2. -/
theorem test_decode_8 :
    decodeWord 0b1000000100100000 = .ldReg 1 2 ∧ decodeWord 0b1000000100100001 = .orReg 1 2 ∧
    decodeWord 0b1000000100100010 = .andReg 1 2 ∧ decodeWord 0b1000000100100011 = .xorReg 1 2 ∧
    decodeWord 0b1000000100100100 = .addReg 1 2 ∧ decodeWord 0b1000000100100101 = .sub 1 2 ∧
    decodeWord 0b1000000100100110 = .shr 1 2 ∧ decodeWord 0b1000000100100111 = .subn 1 2 ∧
    decodeWord 0b1000000100101110 = .shl 1 2 ∧ decodeWord 0b1000000100101111 = .unrecognised8 1 2 0xF := by decide

/-- The sub-table of category 0xE (R68), X = 3. -/
theorem test_decode_E :
    decodeWord 0b1110001110011110 = .skp 3 ∧ decodeWord 0b1110001110100001 = .sknp 3 ∧
    decodeWord 0b1110001110011111 = .unrecognisedE 3 0x9F := by decide

/-- The sub-table of category 0xF (R69), X = 3: the keys 07, 0A, 15, 18, 1E. -/
theorem test_decode_F_low :
    decodeWord 0b1111001100000111 = .ldVxDt 3 ∧ decodeWord 0b1111001100001010 = .ldVxK 3 ∧
    decodeWord 0b1111001100010101 = .ldDtVx 3 ∧ decodeWord 0b1111001100011000 = .ldStVx 3 ∧
    decodeWord 0b1111001100011110 = .addI 3 := by decide

/-- The sub-table of category 0xF (R69), X = 3: the keys 29, 33, 55, 65, and one without an entry. -/
theorem test_decode_F_high :
    decodeWord 0b1111001100101001 = .ldF 3 ∧ decodeWord 0b1111001100110011 = .ldB 3 ∧
    decodeWord 0b1111001101010101 = .ldMemVx 3 ∧ decodeWord 0b1111001101100101 = .ldVxMem 3 ∧
    decodeWord 0b1111001111111111 = .unrecognisedF 3 0xFF := by decide

/-- Two bytes, the high one first (R43: 12 34 is JP 0x234); one byte is no instruction; the table's numbering. -/
theorem test_decode_bytes :
    decodeBytes [0x12, 0x34, 0x56] = .ok (.jp 0x234, [0x56]) ∧ decodeBytes [0x12] = .error .truncated ∧
    decodeBytes [] = .error .truncated ∧ decodeTableWord 16 0x1234 = some (.jp 0x234) ∧
    decodeTableWord 16 0x11234 = none ∧ decodeTableWord 17 0x1234 = none := by decide

/-- The words the encoder writes for R62's examples. -/
theorem test_encode :
    encode (.ldImm 0xA 0x05) = 0x6A05 ∧ encode (.addReg 0 1) = 0x8014 ∧ encode (.drw 0 1 2) = 0xD012 := by decide

/-! Part 3. One step of each instruction. -/

/-- T-FD-1: the sentinel changes nothing. -/
theorem test_sentinel : step (State.reset.placeWord 0x0000) = .next State.reset := by rfl

/-- T-FD-2 to T-FD-7: unrecognised words only advance. -/
theorem test_unrecognised :
    [0x0123, 0x00E1, 0x00FF, 0x8128, 0xE19F, 0xF1FF].all (fun w => after (BitVec.ofNat 16 w) (start [(1, 0x01), (2, 0x02)])
      fun t => t.pc == 0x202 && regsAre t [(1, 0x01), (2, 0x02), (15, 0x00)]) = true := by decide +kernel

/-- T-FD-9: the second byte of a word at 0xFFF is fetched from 0x000, and `pc` wraps. -/
theorem test_fetch_wraps :
    after 0x6A05 (State.reset.setPc 0xFFF) (fun t => t.pc == 0x001 && t.reg 0xA == 0x05) = true := by decide +kernel

/-- T-CF-1 and the byte-order check of part 2.1. -/
theorem test_jp :
    (after 0x1ABC State.reset (fun t => t.pc == 0xABC) &&
      onNext (step (stored State.reset 0x200 [0x12, 0x34])) (fun t => t.pc == 0x234)) = true := by decide +kernel

/-- T-CF-4, T-CF-5. -/
theorem test_jpV0 :
    (after 0xB300 (start [(0, 0x10)]) (fun t => t.pc == 0x310) &&
      after 0xBFFF (start [(0, 0x02)]) (fun t => t.pc == 0x001)) = true := by decide +kernel

/-- T-CF-7, T-CF-8. -/
theorem test_call :
    (after 0x2300 State.reset (fun t => t.stack[0] == 0x202 && t.sp == 1 && t.pc == 0x300) &&
      after 0x2ABC { State.reset with pc := 0xFFE, sp := 15 }
        (fun t => t.stack[15] == 0x000 && t.sp == 16 && t.pc == 0xABC)) = true := by decide +kernel

/-- T-CF-9: CALL on a full stack. -/
theorem test_call_overflow :
    faults (step ({ State.reset with sp := 16 }.placeWord 0x2300)) .stackOverflow = true := by decide +kernel

/-- T-CF-10, T-CF-12. -/
theorem test_ret :
    (after 0x00EE { State.reset with pc := 0x300, sp := 1, stack := State.reset.stack.set 0 0x206 }
        (fun t => t.sp == 0 && t.pc == 0x206) &&
      after 0x00EE { State.reset with pc := 0x400, sp := 16, stack := State.reset.stack.set 15 0x123 }
        (fun t => t.sp == 15 && t.pc == 0x123)) = true := by decide +kernel

/-- T-CF-11: RET on an empty stack. -/
theorem test_ret_underflow : faults (step (State.reset.placeWord 0x00EE)) .stackUnderflow = true := by decide +kernel

/-- T-CF-13, T-CF-14, T-CF-16. -/
theorem test_seImm :
    (after 0x3A05 (start [(10, 0x05)]) (fun t => t.pc == 0x204) &&
      after 0x3A05 (start [(10, 0x06)]) (fun t => t.pc == 0x202) &&
      after 0x3A05 ((start [(10, 0x05)]).setPc 0xFFE) (fun t => t.pc == 0x002)) = true := by decide +kernel

/-- T-CF-17, T-CF-18. -/
theorem test_sneImm :
    (after 0x4A05 (start [(10, 0x05)]) (fun t => t.pc == 0x202) &&
      after 0x4A05 (start [(10, 0x06)]) (fun t => t.pc == 0x204)) = true := by decide +kernel

/-- T-CF-20, T-CF-21. -/
theorem test_seReg :
    (after 0x5120 (start [(1, 7), (2, 8)]) (fun t => t.pc == 0x202) &&
      after 0x5127 (start [(1, 7), (2, 7)]) (fun t => t.pc == 0x204)) = true := by decide +kernel

/-- T-CF-23, T-CF-25. -/
theorem test_sneReg :
    (after 0x9120 (start [(1, 7), (2, 7)]) (fun t => t.pc == 0x202) &&
      after 0x912F (start [(1, 7), (2, 8)]) (fun t => t.pc == 0x204)) = true := by decide +kernel

/-- T-ALU-1, T-ALU-2. -/
theorem test_ldImm :
    (after 0x6A05 State.reset (fun t => regsAre t [(10, 0x05), (15, 0x00)] && t.pc == 0x202) &&
      after 0x6FFF State.reset (fun t => t.reg 15 == 0xFF)) = true := by decide +kernel

/-- T-ALU-3, T-ALU-4. -/
theorem test_addImm :
    (after 0x7A01 (start [(10, 0xFF)]) (fun t => regsAre t [(10, 0x00), (15, 0x00)]) &&
      after 0x7F01 (start [(15, 0xFF)]) (fun t => t.reg 15 == 0x00)) = true := by decide +kernel

/-- T-ALU-6. -/
theorem test_ldReg :
    after 0x8120 (start [(1, 0x01), (2, 0xAA)]) (fun t => regsAre t [(1, 0xAA), (2, 0xAA), (15, 0x00)]) = true := by
  decide +kernel

/-- T-ALU-8. -/
theorem test_orReg :
    after 0x8121 (start [(1, 0xF0), (2, 0x0F), (15, 0x77)]) (fun t => regsAre t [(1, 0xFF), (15, 0x77)]) = true := by
  decide +kernel

/-- T-ALU-9. -/
theorem test_andReg :
    after 0x8122 (start [(1, 0xF0), (2, 0x3C), (15, 0x77)]) (fun t => regsAre t [(1, 0x30), (15, 0x77)]) = true := by
  decide +kernel

/-- T-ALU-10. -/
theorem test_xorReg :
    after 0x8123 (start [(1, 0xF0), (2, 0x3C), (15, 0x77)]) (fun t => regsAre t [(1, 0xCC), (15, 0x77)]) = true := by
  decide +kernel

/-- T-ALU-12, T-ALU-13. -/
theorem test_addReg :
    (after 0x8014 (start [(0, 0xFF), (1, 0x01)]) (fun t => regsAre t [(0, 0x00), (15, 0x01)]) &&
      after 0x8014 (start [(0, 0xFE), (1, 0x01), (15, 0x01)]) (fun t => regsAre t [(0, 0xFF), (15, 0x00)])) = true := by
  decide +kernel

/-- T-ALU-17, T-ALU-18, T-ALU-19: VF as destination and as operand. -/
theorem test_addReg_flag :
    (after 0x8F14 (start [(15, 0x10), (1, 0x20)]) (fun t => t.reg 15 == 0x00) &&
      after 0x8FF4 (start [(15, 0x80)]) (fun t => t.reg 15 == 0x01) &&
      after 0x81F4 (start [(1, 0xFF), (15, 0x01)]) (fun t => regsAre t [(1, 0x00), (15, 0x01)])) = true := by
  decide +kernel

/-- T-ALU-20, T-ALU-21, T-ALU-22. -/
theorem test_sub :
    (after 0x8015 (start [(0, 0x05), (1, 0x03)]) (fun t => regsAre t [(0, 0x02), (15, 0x01)]) &&
      after 0x8015 (start [(0, 0x03), (1, 0x05)]) (fun t => regsAre t [(0, 0xFE), (15, 0x00)]) &&
      after 0x8015 (start [(0, 0x05), (1, 0x05)]) (fun t => regsAre t [(0, 0x00), (15, 0x01)])) = true := by
  decide +kernel

/-- T-ALU-24, T-ALU-25, T-ALU-26. -/
theorem test_sub_flag :
    (after 0x8FF5 (start [(15, 0x09)]) (fun t => t.reg 15 == 0x01) &&
      after 0x8F15 (start [(15, 0x03), (1, 0x05)]) (fun t => t.reg 15 == 0x00) &&
      after 0x81F5 (start [(1, 0x05), (15, 0x03)]) (fun t => regsAre t [(1, 0x02), (15, 0x01)])) = true := by
  decide +kernel

/-- T-ALU-27, T-ALU-28, T-ALU-30. -/
theorem test_subn :
    (after 0x8017 (start [(0, 0x03), (1, 0x05)]) (fun t => regsAre t [(0, 0x02), (15, 0x01)]) &&
      after 0x8017 (start [(0, 0x05), (1, 0x03)]) (fun t => regsAre t [(0, 0xFE), (15, 0x00)]) &&
      after 0x8F17 (start [(15, 0x05), (1, 0x03)]) (fun t => t.reg 15 == 0x00)) = true := by decide +kernel

/-- T-ALU-31, T-ALU-32, T-ALU-35. -/
theorem test_shr :
    (after 0x8106 (start [(1, 0x05)]) (fun t => regsAre t [(1, 0x02), (15, 0x01)]) &&
      after 0x8126 (start [(1, 0x04), (2, 0xFF)]) (fun t => regsAre t [(1, 0x02), (2, 0xFF), (15, 0x00)]) &&
      after 0x8F06 (start [(15, 0x03)]) (fun t => t.reg 15 == 0x01)) = true := by decide +kernel

/-- T-ALU-37, T-ALU-38, T-ALU-41. -/
theorem test_shl :
    (after 0x810E (start [(1, 0x81)]) (fun t => regsAre t [(1, 0x02), (15, 0x01)]) &&
      after 0x812E (start [(1, 0x40), (2, 0xFF)]) (fun t => regsAre t [(1, 0x80), (2, 0xFF), (15, 0x00)]) &&
      after 0x8F0E (start [(15, 0x7F)]) (fun t => t.reg 15 == 0x00)) = true := by decide +kernel

/-- T-ALU-42, T-ALU-45: with injected bytes. -/
theorem test_rnd :
    (after 0xC30F { State.reset with entropy := [0xA7, 0x11] }
        (fun t => t.reg 3 == 0x07 && t.entropy == [0x11] && t.draws == 1) &&
      after 0xCFF0 { State.reset with entropy := [0xFF] } (fun t => t.reg 15 == 0xF0)) = true := by decide +kernel

/-- T-DSP-1. -/
theorem test_cls :
    after 0x00E0 (lit (start [(15, 0x07)]) [(0, 0), (31, 63)])
      (fun t => pixelsAre t [] [(0, 0), (31, 63), (5, 5)] && t.pc == 0x202 && t.reg 15 == 0x07) = true := by decide +kernel

/-- P3, cycle 4: a sprite that wraps on both axes, its bytes 0xC3 and 0x81. -/
theorem test_drw_wraps :
    after 0xD012 (stored ((start [(0, 0x7E), (1, 0x1F)]).setIdx 0x20E) 0x20E [0xC3, 0x81])
      (fun t => pixelsAre t [(31, 62), (31, 63), (31, 4), (31, 5), (0, 62), (0, 5)]
          [(31, 61), (31, 0), (31, 3), (31, 6), (0, 63), (0, 4), (0, 6), (1, 62), (30, 62)] &&
        regsAre t [(0, 0x7E), (15, 0x00)] && t.idx == 0x20E) = true := by decide +kernel

/-- T-DSP-7, T-DSP-9, T-DSP-10: no rows, a collision, and VF as the column. -/
theorem test_drw_flag :
    (after 0xD010 (stored ((start [(15, 0x01)]).setIdx 0x300) 0x300 [0xFF])
        (fun t => pixelsAre t [] [(0, 0), (0, 7)] && t.reg 15 == 0x00 && t.pc == 0x202) &&
      after 0xD011 (lit (stored (State.reset.setIdx 0x300) 0x300 [0xC0]) [(0, 1)])
        (fun t => pixelsAre t [(0, 0)] [(0, 1), (0, 2)] && t.reg 15 == 0x01) &&
      after 0xDF11 (stored ((start [(15, 5), (1, 2)]).setIdx 0x300) 0x300 [0x80])
        (fun t => pixelsAre t [(2, 5)] [(5, 2), (2, 0), (2, 6)] && t.reg 15 == 0x00)) = true := by decide +kernel

/-- T-TK-1. -/
theorem test_ldVxDt :
    after 0xF307 (State.reset.setDt 0x2A) (fun t => t.reg 3 == 0x2A && t.dt == 0x2A && t.pc == 0x202) = true := by
  decide +kernel

/-- T-TK-2. -/
theorem test_ldDtVx : after 0xF315 (start [(3, 0x3C)]) (fun t => t.dt == 0x3C && t.st == 0x00) = true := by
  decide +kernel

/-- T-TK-4. -/
theorem test_ldStVx : after 0xF318 (start [(3, 0x05)]) (fun t => t.st == 0x05 && t.dt == 0x00) = true := by
  decide +kernel

/-- T-TK-5, T-TK-6, T-TK-7. -/
theorem test_skp :
    (after 0xE39E ((start [(3, 0x07)]).setKey 7 true) (fun t => t.pc == 0x204) &&
      after 0xE39E (start [(3, 0x07)]) (fun t => t.pc == 0x202) &&
      after 0xE39E ((start [(3, 0x17)]).setKey 7 true) (fun t => t.pc == 0x204)) = true := by decide +kernel

/-- T-TK-8, T-TK-9, T-TK-10. -/
theorem test_sknp :
    (after 0xE3A1 ((start [(3, 0x07)]).setKey 7 true) (fun t => t.pc == 0x202) &&
      after 0xE3A1 (start [(3, 0x07)]) (fun t => t.pc == 0x204) &&
      after 0xE3A1 ((start [(3, 0xF7)]).setKey 7 true) (fun t => t.pc == 0x202)) = true := by decide +kernel

/-- T-TK-13, T-TK-14, T-TK-16. -/
theorem test_ldVxK :
    (after 0xF30A (((State.reset.setKey 4 true).setKey 9 true).setKey 12 true)
        (fun t => t.reg 3 == 0x04 && t.pc == 0x202) &&
      after 0xF30A ((start [(3, 0x05)]).setKey 0 true) (fun t => t.reg 3 == 0x00 && t.pc == 0x202) &&
      after 0xFF0A (State.reset.setKey 15 true) (fun t => t.reg 15 == 0x0F)) = true := by decide +kernel

/-- T-TK-11, T-TK-15: with no key pressed `pc` stays. -/
theorem test_ldVxK_waits :
    (after 0xF30A (start [(3, 0x05)]) (fun t => t.reg 3 == 0x05 && t.pc == 0x200) &&
      after 0xF30A (State.reset.setPc 0xFFE) (fun t => t.pc == 0xFFE)) = true := by decide +kernel

/-- T-MEM-1. -/
theorem test_ldI : after 0xA123 State.reset (fun t => t.idx == 0x123 && t.pc == 0x202) = true := by decide +kernel

/-- T-MEM-3, T-MEM-4. -/
theorem test_addI :
    (after 0xF31E ((start [(3, 0x10)]).setIdx 0x100) (fun t => t.idx == 0x110) &&
      after 0xF31E ((start [(3, 0xFF), (15, 0x55)]).setIdx 0xFFF) (fun t => t.idx == 0x0FE && t.reg 15 == 0x55)) =
      true := by decide +kernel

/-- T-MEM-7, T-MEM-8. -/
theorem test_ldF :
    (after 0xF329 (start [(3, 0x1A)]) (fun t => t.idx == 0x032) &&
      after 0xF329 (start [(3, 0xFF)]) (fun t => t.idx == 0x04B)) = true := by decide +kernel

/-- T-MEM-10, T-MEM-13. -/
theorem test_ldB :
    (after 0xF333 ((start [(3, 254)]).setIdx 0x300)
        (fun t => bytesAre t [(0x300, 2), (0x301, 5), (0x302, 4), (0x303, 0)] && t.idx == 0x300) &&
      after 0xF333 ((start [(3, 100)]).setIdx 0xFFE)
        (fun t => bytesAre t [(0xFFE, 1), (0xFFF, 0), (0x000, 0), (0x001, 0x90)])) = true := by decide +kernel

/-- T-MEM-14, T-MEM-16. -/
theorem test_ldMemVx :
    (after 0xF255 ((start [(0, 0x11), (1, 0x22), (2, 0x33), (3, 0x44)]).setIdx 0x400)
        (fun t => bytesAre t [(0x400, 0x11), (0x401, 0x22), (0x402, 0x33), (0x403, 0x00)] && t.idx == 0x400) &&
      after 0xF155 ((start [(0, 0xAB), (1, 0xCD)]).setIdx 0xFFF)
        (fun t => bytesAre t [(0xFFF, 0xAB), (0x000, 0xCD), (0x001, 0x90)])) = true := by decide +kernel

/-- T-MEM-17, T-MEM-18. -/
theorem test_ldVxMem :
    (after 0xF265 (stored (State.reset.setIdx 0x400) 0x400 [1, 2, 3, 4])
        (fun t => regsAre t [(0, 1), (1, 2), (2, 3), (3, 0)] && t.idx == 0x400) &&
      after 0xF165 (stored (State.reset.setIdx 0xFFF) 0xFFF [0x5A]) (fun t => regsAre t [(0, 0x5A), (1, 0xF0)])) =
      true := by decide +kernel

/-! Part 4. The driver's operations. -/

/-- A state whose driver issues an operation next. -/
def issuing (s : State) (op : Operation) : State := { s with driver := ⟨[op], .loop []⟩ }

/-- T-EXT-5, T-EXT-6. -/
theorem test_tick :
    (onNext (step (issuing ((State.reset.setDt 5).setSt 1) .tick)) (fun t => t.dt == 4 && t.st == 0) &&
      onNext (step (issuing State.reset .tick)) (fun t => t.dt == 0 && t.st == 0)) = true := by decide +kernel

/-- T-EXT-8. -/
theorem test_setKey :
    (onNext (step (issuing State.reset (.setKey 3 true))) (fun t => t.key 3 && !t.key 4 && t.driver == Driver.cycles) &&
      onNext (step (issuing (State.reset.setKey 3 true) (.setKey 3 false))) (fun t => !t.key 3)) = true := by
  decide +kernel

/-- T-EXT-2. -/
theorem test_loadRom :
    onNext (step (issuing State.reset (.loadRom [0x12, 0x00])))
      (fun t => bytesAre t [(0x1FF, 0x00), (0x200, 0x12), (0x201, 0x00)] && t.pc == 0x200) = true := by decide +kernel

/-- T-EXT-4: the state is unchanged, the status is the capacity error, and the driver's next operation is applied. -/
theorem test_loadRom_capacity :
    (State.reset.loadRom (List.replicate 3585 0xAA) == (State.reset, .capacityError) &&
      onNext (Host.Core.run Sys2Proof.core 2
          { State.reset with dt := 5, driver := ⟨[.loadRom (List.replicate 3585 0xAA), .tick], .loop []⟩ })
        (fun t => t.dt == 4 && t.pc == 0x200 && t.mem == [])) = true := by decide +kernel

/-- R217, T-EXT-10: a driver that issues a Cycle and a Tick over and over, the Ticks without end. -/
theorem test_loop_of_operations :
    onNext (Host.Core.run Sys2Proof.core 4
        { stored (State.reset.setDt 2) 0x200 [0xF0, 0x07, 0xF1, 0x07] with driver := ⟨[], .loop [.cycle, .tick]⟩ })
      (fun t => regsAre t [(0, 0x02), (1, 0x01)] && t.dt == 0 && t.nextOperation == .cycle) = true := by decide +kernel

/-- T-EXT-1. -/
theorem test_reset :
    onNext (step (issuing (stored ((start [(3, 7)]).setPc 0x300) 0x000 [1, 2, 3]) .reset)) (fun t => t == State.reset) =
      true := by decide +kernel

/-- R221: the diagnostic marks 0x0123 and not 0x6A05. -/
theorem test_unknownOpcode :
    (State.reset.placeWord 0x0123).unknownOpcode = some (0x0123, 0x200) ∧
    (State.reset.placeWord 0x6A05).unknownOpcode = none := by decide +kernel

/-- Writing back the reset content leaves no cell listed: equal memories are equal data. -/
theorem test_memory_canonical :
    (stored (stored State.reset 0x300 [7]) 0x300 [0] == State.reset) = true := by decide +kernel

/-! Part 5. The hypotheses of the obligations are met. -/

/-- A next state, as an outcome. -/
theorem nextOf {o : Host.Outcome State Fault Refusal} (h : onNext o (fun _ => true) = true) : ∃ t, o = .next t := by
  cases o with
  | next t => exact ⟨t, rfl⟩
  | fault _ => cases h
  | refused _ => cases h

theorem witness_DecodeEncodeRoundTrip :
    WellFormed .sentinel = true ∧ WellFormed (.drw 15 15 0xF) = true ∧ WellFormed (.unrecognised0 0xFFF) = true ∧
    WellFormed (.unrecognised8 0 15 0xD) = true ∧ WellFormed (.unrecognisedE 15 0x00) = true ∧
    WellFormed (.unrecognisedF 0 0xFF) = true := by decide

/-- At 0x200 with cycles alone issued, and at 0xFFF, where the second byte is that at 0x000, with a Cycle issued before
Ticks. -/
theorem witness_StepRunsTheFetchedInstruction :
    (let s := State.reset.placeWord 0x6A05
     decodeBytes [s.readByte s.pc, s.readByte (pcPlus s 1)] = .ok (.ldImm 0xA 0x05, []) ∧ s.driver = Driver.cycles) ∧
    (let s := { (State.reset.setPc 0xFFF).placeWord 0x6A05 with driver := ⟨[.cycle], .loop [.tick]⟩ }
     decodeBytes [s.readByte s.pc, s.readByte (pcPlus s 1)] = .ok (.ldImm 0xA 0x05, []) ∧
       s.nextOperation = .cycle) := by decide +kernel

theorem witness_SentinelHoldsForever :
    State.reset.readByte State.reset.pc = 0x00#8 ∧ State.reset.readByte (pcPlus State.reset 1) = 0x00#8 ∧
    State.reset.driver = Driver.cycles := by decide +kernel

/-- One word of each of the four sub-tables, at the edges of their gaps. -/
theorem witness_UnrecognisedWordsOnlyAdvance :
    NoTableEntry ((State.reset.placeWord 0x0001).readWord 0x200) ∧
    NoTableEntry ((State.reset.placeWord 0x812F).readWord 0x200) ∧
    NoTableEntry ((State.reset.placeWord 0xE19F).readWord 0x200) ∧
    NoTableEntry ((State.reset.placeWord 0xFF66).readWord 0x200) := by
  refine ⟨Or.inl ?_, Or.inr (Or.inl ?_), Or.inr (Or.inr (Or.inl ?_)), Or.inr (Or.inr (Or.inr ?_))⟩ <;> decide +kernel

/-- A plain instruction, a skip, a return and a wait. -/
theorem witness_FinalProgramCounter :
    (∃ t, exec .cls State.reset = .next t) ∧ (∃ t, exec (.seImm 0 0x00) State.reset = .next t) ∧
    (∃ t, exec .ret { State.reset with sp := 1 } = .next t) ∧ ∃ t, exec (.ldVxK 3) State.reset = .next t :=
  ⟨⟨_, rfl⟩, ⟨_, rfl⟩, nextOf (by decide +kernel), nextOf (by decide +kernel)⟩

/-- The stack pointers nearest to the two faults. -/
theorem witness_EveryInstructionCompletes :
    (let i := Instr.call 0x300; let s := { State.reset with sp := 15 }
     ¬ ((∃ nnn, i = .call nnn) ∧ s.sp.val = 16) ∧ ¬ (i = .ret ∧ s.sp.val = 0)) ∧
    (let i := Instr.ret; let s := { State.reset with sp := 1 }
     ¬ ((∃ nnn, i = .call nnn) ∧ s.sp.val = 16) ∧ ¬ (i = .ret ∧ s.sp.val = 0)) ∧
    (let i := Instr.ret; let s := { State.reset with sp := 16 }
     ¬ ((∃ nnn, i = .call nnn) ∧ s.sp.val = 16) ∧ ¬ (i = .ret ∧ s.sp.val = 0)) := by
  refine ⟨⟨fun h => ?_, fun h => ?_⟩, ⟨fun h => ?_, fun h => ?_⟩, fun h => ?_, fun h => ?_⟩
  · exact absurd h.2 (by decide)
  · exact absurd h.1 (by decide)
  · exact absurd h.2 (by decide)
  · exact absurd h.2 (by decide)
  · obtain ⟨⟨nnn, h⟩, -⟩ := h; cases h
  · exact absurd h.2 (by decide)

/-- Both faults are reported by some cycle. -/
theorem witness_FaultLeavesStateAndRepeats :
    cycleReport ({ State.reset with sp := 16 }.placeWord 0x2300) =
      some ({ State.reset with sp := 16 }.placeWord 0x2300, .stackOverflow) ∧
    cycleReport (State.reset.placeWord 0x00EE) = some (State.reset.placeWord 0x00EE, .stackUnderflow) := by
  decide +kernel

theorem witness_CallPushesTheReturnAddress :
    State.reset.sp.val < 16 ∧ ({ State.reset with sp := 15 } : State).sp.val < 16 := by decide

theorem witness_CallOnFullStackOverflows :
    let s := { State.reset with sp := 16 }.placeWord 0x2300
    decodeWord (s.readWord s.pc) = .call 0x300 ∧ s.sp.val = 16 := by decide +kernel

theorem witness_ReturnOnEmptyStackUnderflows :
    let s := State.reset.placeWord 0x00EE
    decodeWord (s.readWord s.pc) = .ret ∧ s.sp.val = 0 := by decide +kernel

theorem witness_ReturnPopsTheLastAddress :
    0 < ({ State.reset with sp := 1 } : State).sp.val ∧ 0 < ({ State.reset with sp := 16 } : State).sp.val := by decide

theorem witness_CallThenReturnResumes :
    State.reset.sp.val < 16 ∧ ({ State.reset with sp := 15 } : State).sp.val < 16 := by decide

/-- The clause on `pc` of R121, at the last address it speaks of. -/
theorem witness_LoadImmediateWritesOneRegister : (State.reset.setPc 0xFFD).pc.toNat + 2 < 4096 := by decide

theorem witness_ResultAndFlagGiveTheExactValue : (0 : Reg) ≠ 15 ∧ (14 : Reg) ≠ 15 := by decide

/-- An instruction that writes VF as a side effect, and one that does not and whose destination is another. -/
theorem witness_SixInstructionsWriteTheFlag :
    ((∃ t, exec (.addReg 15 15) State.reset = .next t) ∧ writesFlag (.addReg 15 15) = true) ∧
    (∃ t, exec (.ldImm 14 0x05) State.reset = .next t) ∧ writesFlag (.ldImm 14 0x05) = false ∧
    destination (.ldImm 14 0x05) ≠ some 15 :=
  ⟨⟨⟨_, rfl⟩, rfl⟩, ⟨_, rfl⟩, rfl, by decide⟩

theorem witness_RandomByteAndImmediate :
    ({ State.reset with entropy := [0xA7] } : State).entropy = 0xA7#8 :: [] ∧ State.reset.entropy = [] := by decide

/-- A sprite of one pixel: one covered pixel, one that is not, with a collision and without. -/
theorem witness_DrawXorsTheSpriteMask :
    (let s := lit (stored (State.reset.setIdx 0x300) 0x300 [0x80]) [(0, 0)]
     Covers s 0 1 1 0 0 ∧ s.pixel 0 0 = true) ∧
    (let s := stored (State.reset.setIdx 0x300) 0x300 [0x80]
     ¬ Covers s 0 1 1 0 1 ∧ ¬ ∃ r c, Covers s 0 1 1 r c ∧ s.pixel r c = true) := by
  refine ⟨⟨⟨0, 0, by decide +kernel⟩, by decide +kernel⟩, ?_, ?_⟩
  · rintro ⟨k, j, hk, hj, -, hc, hb⟩
    obtain rfl : k = 0 := by have : k < 1 := hk; omega
    obtain rfl : j = 1 := by have : (0 + j) % 64 = 1 := hc; omega
    revert hb; decide +kernel
  · rintro ⟨r, c, -, hp⟩
    have : ∀ r c, (stored (State.reset.setIdx 0x300) 0x300 [0x80]).pixel r c = false := by
      intro r c; simp [State.pixel, stored, State.reset, State.initial, State.setIdx, State.writeBytes, State.writeByte]
    rw [this r c] at hp; cases hp

/-- A clear display, at an origin that is not VF, and at one that is, which the first draw leaves at 0. -/
theorem witness_DrawTwiceRestoresTheDisplay :
    let s := stored (State.reset.setIdx 0x300) 0x300 [0x80]
    (∀ r c, s.pixel r c = false) ∧ Covers s 0 1 1 0 0 ∧ Covers s 15 1 1 0 0 ∧ (0 : Reg) ≠ 15 ∧ (1 : Reg) ≠ 15 ∧
    onNext (exec (.drw 15 1 1) s) (fun t => (t.reg 15).toNat % 64 == (s.reg 15).toNat % 64) = true := by
  refine ⟨fun r c => ?_, ⟨0, 0, by decide +kernel⟩, ⟨0, 0, by decide +kernel⟩, by decide, by decide, by decide +kernel⟩
  simp [State.pixel, stored, State.reset, State.initial, State.setIdx, State.writeBytes, State.writeByte]

/-- A key index within range and one that is masked. -/
theorem witness_KeySkipsTestTheMaskedKey :
    ((start [(3, 0x0F)]).reg 3).toNat % 16 = (15 : Reg).val ∧ ((start [(3, 0xF7)]).reg 3).toNat % 16 = (7 : Reg).val := by
  decide +kernel

/-- No key, and the least of several at the two ends. -/
theorem witness_WaitForKeyTakesTheLowestKey :
    (∀ k, State.reset.key k = false) ∧
    (let s := (State.reset.setKey 0 true).setKey 9 true
     s.key 0 = true ∧ ∀ j : Reg, j < 0 → s.key j = false) ∧
    (let s := State.reset.setKey 15 true
     s.key 15 = true ∧ ∀ j : Reg, j < 15 → s.key j = false) := by decide +kernel

/-- T-MEM-20: a dump onto the cells of the next instruction. -/
theorem witness_StoredWordIsFetchedNext :
    let s := ((start [(0, 0x6A), (1, 0x05)]).setIdx 0x202).placeWord 0xF155
    s.nextOperation = .cycle ∧ s.taken.nextOperation = .cycle ∧ decodeWord (s.readWord s.pc) = .ldMemVx 1 ∧ (1 : Reg) ≤ 1 ∧ s.idx = pcPlus s 2 := by
  decide +kernel

/-- A writer of each component and, in each clause, an instruction that is not. -/
theorem witness_WritersOfEachComponent :
    (∃ t, exec (.drw 0 1 0) State.reset = .next t) ∧ (∃ t, exec (.ldB 0) State.reset = .next t) ∧
    (writesMem (.drw 0 1 0) || writesIdx (.drw 0 1 0) || writesStack (.drw 0 1 0) || writesSp (.drw 0 1 0) ||
      writesDt (.drw 0 1 0) || writesSt (.drw 0 1 0) || drawsEntropy (.drw 0 1 0)) = false ∧
    writesDisp (.ldB 0) = false :=
  ⟨⟨_, rfl⟩, ⟨_, rfl⟩, rfl, rfl⟩

/-- Two states with one live cell, alike, and different dead cells. -/
theorem witness_DeadStackCellsAreUnobservable :
    let s := { State.reset with sp := 1, stack := State.reset.stack.set 0 0x202 }
    let t := { s with stack := s.stack.set 1 0xABC }
    SameButDeadCells s t ∧ s ≠ t := by
  refine ⟨⟨rfl, fun k hk => ?_⟩, by decide +kernel⟩
  obtain rfl : k = 0 := by have : k < 1 := hk; omega
  decide +kernel

/-- The two ends of D17 and the wait for a key. -/
theorem witness_FixedPointsOfTheCycle :
    State.reset.EndedByWord ∧ (State.reset.placeWord 0x1200).EndedByWord ∧ (State.reset.placeWord 0xF30A).AwaitsKey ∧
    State.reset.driver = Driver.cycles :=
  ⟨Or.inl (by unfold State.AtSentinel; decide +kernel), Or.inr (by unfold State.AtSelfJump; decide +kernel),
    by unfold State.AwaitsKey; decide +kernel, rfl⟩

/-- R225 (b) beyond D17's words: a `JP V0` onto itself, and two `JP`s onto each other, end a run. -/
theorem witness_EndedRunsReturnForever :
    State.reset.EndedByWord ∧ (State.reset.placeWord 0xB200).Ended ∧
    (stored State.reset 0x200 [0x12, 0x02, 0x12, 0x00]).Ended := by
  refine ⟨Or.inl (by unfold State.AtSentinel; decide +kernel), Or.inr ⟨?_, fun h => ?_⟩, Or.inr ⟨?_, fun h => ?_⟩⟩
  · have hf : (State.reset.placeWord 0xB200).fetch = .jpV0 0x200 := by decide +kernel
    have ho : (State.reset.placeWord 0xB200).offsetTarget 0x200 = 0x200 := by decide +kernel
    refine State.recurs_of_fixed fun e d => ?_
    show exec (State.reset.placeWord 0xB200).fetch _ = _
    rw [hf]
    exact congrArg (fun a => Host.Outcome.next (State.setPc _ a)) ho
  · exact absurd h.1 (by decide +kernel)
  · have h0 : (stored State.reset 0x200 [0x12, 0x02, 0x12, 0x00]).fetch = .jp 0x202 := by decide +kernel
    have h2 : ((stored State.reset 0x200 [0x12, 0x02, 0x12, 0x00]).setPc 0x202).fetch = .jp 0x200 := by decide +kernel
    generalize hs : stored State.reset 0x200 [0x12, 0x02, 0x12, 0x00] = s at h0 h2
    have hp : s.pc = 0x200 := by rw [← hs]; rfl
    refine fun e d => ⟨2, { s with entropy := e, draws := d }, by decide, ?_, rfl⟩
    have c0 : cycle { s with entropy := e, draws := d } = .next ({ s with entropy := e, draws := d }.setPc 0x202) := by
      show exec s.fetch _ = _
      rw [h0]; rfl
    have c2 : cycle ({ s with entropy := e, draws := d }.setPc 0x202) = .next { s with entropy := e, draws := d } := by
      show exec (s.setPc 0x202).fetch _ = _
      rw [h2]
      show Host.Outcome.next (State.setPc _ 0x200) = _
      rw [← hp]; rfl
    rw [runCycles, c0]
    show runCycles 1 _ = _
    rw [runCycles, c2]
    rfl
  · exact absurd h.1 (by decide +kernel)

theorem witness_DiagnosticMarksUnrecognisedWords :
    NoTableEntry ((State.reset.placeWord 0x8128).readWord 0x200) ∧
    ¬ NoTableEntry ((State.reset.placeWord 0x8124).readWord 0x200) := by
  unfold NoTableEntry; decide +kernel

theorem witness_StepAppliesTheNextOperation :
    State.reset.nextOperation = .cycle ∧ (issuing State.reset .tick).nextOperation = .tick ∧
    (issuing State.reset (.setKey 15 true)).nextOperation = .setKey 15 true ∧
    (issuing State.reset (.loadRom [0x12])).nextOperation = .loadRom [0x12] ∧
    (issuing State.reset .reset).nextOperation = .reset := by decide

/-- A schedule's last operation, a loop, the free stream, cycles, and a step that answers a next state. -/
theorem witness_DriverIssuesItsStreamInOrder :
    (issuing State.reset .tick).driver.schedule[0]? = some .tick ∧
    (let s := { State.reset with driver := ⟨[], .loop [.cycle, .tick]⟩ }
     s.driver = ⟨[], .loop [.cycle, .tick]⟩ ∧ [Operation.cycle, .tick] ≠ []) ∧
    ({ State.reset with driver := ⟨[], .free 0⟩ } : State).driver = ⟨[], .free 0⟩ ∧
    State.reset.driver = Driver.cycles ∧ ∃ t, step State.reset = .next t :=
  ⟨rfl, ⟨rfl, by decide⟩, rfl, rfl, ⟨_, rfl⟩⟩

/-- A flag that has the value it is set to, at the last index. -/
theorem witness_SetKeyWritesOneFlag : State.reset.key 15 = false ∧ (14 : Reg) ≠ 15 := by decide

/-- The shortest and the longest ROM, and one byte more. -/
theorem witness_LoadRomCopiesTheBytes :
    ([] : List Byte).length ≤ 3584 ∧ (List.replicate 3584 (0xAA : Byte)).length ≤ 3584 ∧
    3584 < (List.replicate 3585 (0xAA : Byte)).length := by
  exact ⟨Nat.zero_le _, by rw [List.length_replicate], by rw [List.length_replicate]; decide⟩

theorem witness_ResetConstructsTheMachine : (issuing State.reset .reset).nextOperation = .reset := by decide

/-- A Cycle at two cells of 0x00, at 0xFFF with the second at 0x000 cleared, and a Tick with no program. -/
theorem witness_CoreIsSafeWithNoProgram :
    (let s := stored (State.reset.setPc 0xFFF) 0x000 [0x00]
     s.readByte s.pc = 0x00#8 ∧ s.readByte (pcPlus s 1) = 0x00#8 ∧ s.nextOperation = .cycle) ∧
    (let s := issuing State.reset .tick
     (s.pc = 0x200#12 ∧ s.readByte 0x200#12 = 0x00#8 ∧ s.readByte 0x201#12 = 0x00#8) ∧ s.nextOperation = .tick) := by
  decide +kernel

/-- A state with a cell listed, and a step from it that lists more. -/
theorem witness_StepKeepsMemoryCanonical :
    let s := ((start [(3, 254)]).setIdx 0x300).placeWord 0xF333
    s.Inv ∧ ∃ t, step s = .next t := by
  refine ⟨?_, nextOf (by decide +kernel)⟩
  unfold State.Inv; decide +kernel

end Sys2Proof.Tests
end

section
/-! PROOFS. The stream a driver issues, operation by operation (R7, R217; log entry 14), and that no step changes what
is issued after it. -/

namespace Sys2Proof.Machine

/-! What remains of the stream after some operations. -/

/-- Taking operations off touches the driver alone, so what is issued is a matter of the driver's stream. -/
theorem State.nextOperation_iterate_taken (s : State) (k : Nat) :
    (State.taken^[k] s).nextOperation = (Driver.rest^[k] s.driver).head := by
  have h : Function.Semiconj State.driver State.taken Driver.rest := State.taken_driver
  rw [State.nextOperation, h.iterate_right k s]

/-- A schedule is used up after as many operations as it has. -/
theorem Driver.iterate_rest_length (ops : List Operation) (str : Stream) :
    Driver.rest^[ops.length] ⟨ops, str⟩ = ⟨[], str⟩ := by
  induction ops with
  | nil => rfl
  | cons op ops ih => rw [List.length_cons, Function.iterate_succ_apply, Driver.rest_cons, ih]

/-- The k-th operation issued is the k-th of the schedule. -/
theorem Driver.head_iterate_rest_of_schedule {ops : List Operation} {k : Nat} {op : Operation}
    (h : ops[k]? = some op) (str : Stream) : (Driver.rest^[k] ⟨ops, str⟩).head = op := by
  induction ops generalizing k with
  | nil => exact absurd h (by simp)
  | cons op' ops ih =>
    cases k with
    | zero => exact Option.some.inj h
    | succ k => rw [Function.iterate_succ_apply, Driver.rest_cons]; exact ih h

/-- A loop issues what its operations as a schedule before it issue. -/
theorem Driver.head_iterate_rest_loop {ops : List Operation} (h : ops ≠ []) (k : Nat) :
    (Driver.rest^[k] ⟨[], .loop ops⟩).head = (Driver.rest^[k] ⟨ops, .loop ops⟩).head := by
  obtain ⟨hhead, hrest⟩ := Driver.loop_again ops h
  cases k with
  | zero => exact hhead
  | succ k => rw [Function.iterate_succ_apply, hrest, Function.iterate_succ_apply]

/-- A loop comes back to itself after one round. -/
theorem Driver.isPeriodicPt_rest_loop {ops : List Operation} (h : ops ≠ []) :
    Function.IsPeriodicPt Driver.rest ops.length ⟨[], .loop ops⟩ := by
  obtain ⟨n, hn⟩ := Nat.exists_eq_succ_of_ne_zero (mt List.length_eq_zero_iff.1 h)
  have hround := Driver.iterate_rest_length ops (.loop ops)
  rw [hn, Function.iterate_succ_apply] at hround
  rw [hn, Function.IsPeriodicPt, Function.IsFixedPt, Function.iterate_succ_apply, (Driver.loop_again ops h).2, hround]

/-- The k-th operation of a loop is that of its place in the round. -/
theorem Driver.some_head_iterate_rest_loop {ops : List Operation} (h : ops ≠ []) (k : Nat) :
    some (Driver.rest^[k] ⟨[], .loop ops⟩).head = ops[k % ops.length]? := by
  have hk : k % ops.length < ops.length := Nat.mod_lt k (List.length_pos_of_ne_nil h)
  rw [← (Driver.isPeriodicPt_rest_loop h).iterate_mod_apply k, Driver.head_iterate_rest_loop h,
    Driver.head_iterate_rest_of_schedule (List.getElem?_eq_getElem hk), List.getElem?_eq_getElem hk]

theorem Driver.iterate_rest_free (n k : Nat) : Driver.rest^[k] ⟨[], .free n⟩ = ⟨[], .free (n + k)⟩ := by
  induction k with
  | zero => rfl
  | succ k ih => rw [Function.iterate_succ_apply', ih, Driver.rest_free, Nat.add_assoc]

/-! The driver is left alone by the operations of the state. -/

@[simp] theorem State.loadReg_driver (s : State) (x : Reg) (b : Byte) : (s.loadReg x b).driver = s.driver := rfl

@[simp] theorem State.loadRegFlag_driver (s : State) (x : Reg) (b : Byte) (c : Bool) :
    (s.loadRegFlag x b c).driver = s.driver := rfl

@[simp] theorem State.skipIf_driver (s : State) (c : Bool) : (s.skipIf c).driver = s.driver := by rw [State.skipIf_eq]

@[simp] theorem State.storeDigits_driver (s : State) (b : Byte) : (s.storeDigits b).driver = s.driver := rfl

@[simp] theorem State.dumpRegs_driver (s : State) (n : Nat) : (s.dumpRegs n).driver = s.driver := by
  rw [State.dumpRegs_eq]

@[simp] theorem State.loadRegs_driver (s : State) (n : Nat) : (s.loadRegs n).driver = s.driver := by
  rw [State.loadRegs_eq]

@[simp] theorem State.writeBytes_driver (s : State) (a : Addr) (bs : List Byte) :
    (s.writeBytes a bs).driver = s.driver := by
  rw [State.writeBytes_eq]

@[simp] theorem State.loadRom_driver (s : State) (bs : List Byte) : (s.loadRom bs).1.driver = s.driver := by
  unfold State.loadRom
  split
  · rfl
  · exact State.writeBytes_driver ..

@[simp] theorem State.noOp_driver (s : State) : s.noOp.driver = s.driver := rfl

@[simp] theorem State.construct_driver (s : State) : s.construct.driver = s.driver := rfl

theorem State.driver_of_push {s t : State} {a : Addr} (h : s.push a = .ok t) : t.driver = s.driver := by
  by_cases hsp : s.sp.val < 16
  · rw [State.push_of_lt hsp] at h; cases h; rfl
  · rw [State.push_of_full (by have := s.sp.isLt; omega)] at h; cases h

theorem State.driver_of_pop {s t : State} {a : Addr} (h : s.pop = .ok (a, t)) : t.driver = s.driver := by
  by_cases hsp : 0 < s.sp.val
  · obtain ⟨hb, hpop⟩ := State.pop_of_pos hsp
    rw [hpop] at h; cases h; rfl
  · rw [State.pop_of_empty (by omega)] at h; cases h

theorem execCall_keeps_driver {nnn : Addr} {s t : State} (h : execCall nnn s = .next t) : t.driver = s.driver := by
  unfold execCall at h
  split at h
  · next u hu => cases h; rw [State.setPc_driver, State.driver_of_push hu]
  · cases h

theorem execRet_keeps_driver {s t : State} (h : execRet s = .next t) : t.driver = s.driver := by
  unfold execRet at h
  split at h
  · next a u hu => cases h; rw [State.setPc_driver, State.driver_of_pop hu]
  · cases h

theorem execLdVxK_keeps_driver {x : Reg} {s t : State} (h : execLdVxK x s = .next t) : t.driver = s.driver := by
  unfold execLdVxK at h
  split at h <;> cases h <;> rfl

/-- No instruction touches the driver's stream. CALL, RET and LD Vx,K branch on the state; every other one
answers a next state that is written out as an update of other fields. -/
theorem exec_keeps_driver {i : Instr} {s t : State} (h : exec i s = .next t) : t.driver = s.driver := by
  cases i with
  | call nnn => exact execCall_keeps_driver h
  | ret => exact execRet_keeps_driver h
  | ldVxK x => exact execLdVxK_keeps_driver h
  | _ => cases h; simp

/-- None of the five operations changes what is issued after it. -/
theorem applyOperation_keeps_driver {op : Operation} {s t : State} (h : applyOperation op s = .next t) :
    t.driver = s.driver := by
  cases op with
  | cycle => exact exec_keeps_driver h
  | tick => cases h; exact State.tick_driver s
  | setKey k pressed => cases h; exact State.setKey_driver s k pressed
  | loadRom bytes => cases h; exact State.loadRom_driver s bytes
  | reset => cases h; exact State.construct_driver s

/-- Settles O45: what is issued is read off the driver's stream by its form (a loop is a periodic point of taking an
operation off), and no operation changes that stream. -/
theorem driverIssuesItsStreamInOrder : Obligations.DriverIssuesItsStreamInOrder := by
  refine ⟨fun s k op h => ?schedule, fun s ops k hne h => ?loop, fun s n k h => ?free, fun s k h => ?cycles,
    fun s t h => applyOperation_keeps_driver h⟩ <;> rw [State.nextOperation_iterate_taken]
  case schedule => exact Driver.head_iterate_rest_of_schedule h s.driver.stream
  case loop => rw [h, Driver.some_head_iterate_rest_loop hne]
  case free => rw [h, Driver.iterate_rest_free, Driver.head_free]
  case cycles => rw [h, Function.iterate_fixed Driver.rest_cycles, Driver.head_cycles]

end Sys2Proof.Machine
end

section
/-! PROOFS. What each instruction writes (10_state.md R10), and where it leaves `pc` (40_fetch_decode.md R86). -/

namespace Sys2Proof.Machine
open Sys2Proof Sys2Proof.Claims

/-! The program counter. -/

theorem pcPlus_eq (s : State) (k : Nat) : pcPlus s k = s.pc + BitVec.ofNat 12 k := by
  refine BitVec.eq_of_toNat_eq ?_
  simp only [pcPlus, BitVec.toNat_add, BitVec.toNat_ofNat]
  omega

theorem pcPlus_two (s : State) : pcPlus s 2 = s.pc2 := pcPlus_eq s 2

/-- A skip ends at pc0 + 4 or at pc0 + 2 (R86). -/
theorem State.toNat_pc_skipIf (s : State) (c : Bool) :
    (s.skipIf c).pc.toNat = if c then (s.pc.toNat + 4) % 4096 else (s.pc.toNat + 2) % 4096 := by
  cases c
  · exact s.toNat_pc2
  · have h : (s.skipIf true).pc.toNat = (s.pc2.toNat + 2) % 4096 := BitVec.toNat_add ..
    rw [h, s.toNat_pc2, if_pos rfl]
    omega

theorem State.toNat_offsetTarget (s : State) (nnn : Addr) :
    (s.offsetTarget nnn).toNat = (nnn.toNat + (s.reg 0).toNat) % 4096 := by
  simp only [State.offsetTarget, BitVec.toNat_add, BitVec.toNat_setWidth]
  omega

/-! The call stack: CALL and RET. -/

/-- CALL below a full stack (R103). -/
theorem execCall_of_lt {s : State} (h : s.sp.val < 16) (nnn : Addr) :
    execCall nnn s = .next { s with
      stack := s.stack.set s.sp.val s.pc2, sp := ⟨s.sp.val + 1, Nat.succ_lt_succ h⟩, pc := nnn } := by
  rw [execCall, State.push_of_lt h]
  rfl

/-- CALL on a full stack (R201). -/
theorem execCall_of_full {s : State} (h : s.sp.val = 16) (nnn : Addr) :
    execCall nnn s = .fault .stackOverflow := by
  rw [execCall, State.push_of_full h]
  rfl

/-- RET on a stack that is not empty (R104). -/
theorem execRet_of_pos {s : State} (h : 0 < s.sp.val) :
    ∃ (hb : s.sp.val - 1 < 16), execRet s = .next { s with
      sp := ⟨s.sp.val - 1, Nat.lt_succ_of_lt hb⟩, pc := s.stack[s.sp.val - 1] } := by
  obtain ⟨hb, hpop⟩ := State.pop_of_pos h
  refine ⟨hb, ?_⟩
  rw [execRet, hpop]
  rfl

/-- RET on an empty stack (R202). -/
theorem execRet_of_empty {s : State} (h : s.sp.val = 0) : execRet s = .fault .stackUnderflow := by
  rw [execRet, State.pop_of_empty h]
  rfl

/-- A CALL that answers a next state found the stack below full. -/
theorem eq_of_execCall {nnn : Addr} {s t : State} (h : execCall nnn s = .next t) : ∃ hsp : s.sp.val < 16,
    t = { s with stack := s.stack.set s.sp.val s.pc2, sp := ⟨s.sp.val + 1, Nat.succ_lt_succ hsp⟩, pc := nnn } := by
  by_cases hsp : s.sp.val < 16
  · rw [execCall_of_lt hsp] at h
    cases h
    exact ⟨hsp, rfl⟩
  · rw [execCall_of_full (by omega)] at h
    cases h

/-- A RET that answers a next state found the stack not empty. -/
theorem eq_of_execRet {s t : State} (h : execRet s = .next t) : ∃ hb : s.sp.val - 1 < 16,
    0 < s.sp.val ∧ t = { s with sp := ⟨s.sp.val - 1, Nat.lt_succ_of_lt hb⟩, pc := s.stack[s.sp.val - 1] } := by
  by_cases hsp : 0 < s.sp.val
  · obtain ⟨hb, hret⟩ := execRet_of_pos hsp
    rw [hret] at h
    cases h
    exact ⟨hb, hsp, rfl⟩
  · rw [execRet_of_empty (by omega)] at h
    cases h

/-! The keypad. -/

/-- The key that SKP and SKNP test, by the low 4 bits of the register (R156, D6). -/
theorem State.keys_mod_sixteen (s : State) (b : Byte) : s.keys[b.toNat % 16]? = some (s.key (keyIndex b)) := by
  have h : (keyIndex b).val = b.toNat % 16 := by
    simp [keyIndex, Reg.ofBits]
  rw [Vector.getElem?_eq_getElem (by omega)]
  simp only [State.key, h]

theorem State.firstKey_eq_none {s : State} : s.firstKey = none ↔ ∀ k, s.key k = false := by
  simp [State.firstKey]

theorem State.exists_key_of_firstKey {s : State} {k : Reg} (h : s.firstKey = some k) : ∃ k, s.key k = true :=
  ⟨k, List.find?_some h⟩

/-- With no key pressed LD Vx,K changes nothing, `pc` included (R155). -/
theorem execLdVxK_of_none {s : State} (h : s.firstKey = none) (x : Reg) : execLdVxK x s = .next s := by
  have hpc : s.pc2 - 2#12 = s.pc := BitVec.add_sub_cancel ..
  rw [execLdVxK, h]
  simp only [hpc]
  rfl

/-- With a key pressed LD Vx,K loads its index (R155). -/
theorem execLdVxK_of_some {s : State} {k : Reg} (h : s.firstKey = some k) (x : Reg) :
    execLdVxK x s = .next (s.loadReg x (BitVec.ofNat 8 k.val)) := by
  rw [execLdVxK, h]
  rfl

/-- The two cases of LD Vx,K (R155). -/
theorem eq_of_execLdVxK {x : Reg} {s t : State} (h : execLdVxK x s = .next t) :
    s.firstKey = none ∧ t = s ∨ ∃ k, s.firstKey = some k ∧ t = s.loadReg x (BitVec.ofNat 8 k.val) := by
  cases hk : s.firstKey with
  | none => rw [execLdVxK_of_none hk] at h; cases h; exact .inl ⟨rfl, rfl⟩
  | some k => rw [execLdVxK_of_some hk] at h; cases h; exact .inr ⟨k, rfl, rfl⟩

/-! The frame of every instruction, and of LoadROM. -/

/-- What an instruction that answers a next state writes besides V and `pc` (R10): a component only where it is one of
the writers that R10 names. -/
theorem exec_frame {i : Instr} {s t : State} (h : exec i s = .next t) :
    t = { s with
      v := t.v
      pc := t.pc
      mem := if writesMem i then t.mem else s.mem
      idx := if writesIdx i then t.idx else s.idx
      stack := if writesStack i then t.stack else s.stack
      sp := if writesSp i then t.sp else s.sp
      dt := if writesDt i then t.dt else s.dt
      st := if writesSt i then t.st else s.st
      disp := if writesDisp i then t.disp else s.disp
      entropy := if drawsEntropy i then t.entropy else s.entropy
      draws := if drawsEntropy i then t.draws else s.draws } := by
  cases i with
  | call nnn => obtain ⟨hsp, rfl⟩ := eq_of_execCall h; rfl
  | ret => obtain ⟨hb, hsp, rfl⟩ := eq_of_execRet h; rfl
  | seImm _ _ | sneImm _ _ | seReg _ _ _ | sneReg _ _ _ | skp _ | sknp _ =>
    cases h
    rw [State.skipIf_eq]
    rfl
  | ldVxK x => obtain ⟨-, rfl⟩ | ⟨k, -, rfl⟩ := eq_of_execLdVxK h <;> rfl
  | ldMemVx x => cases h; rw [State.dumpRegs_eq]; rfl
  | ldVxMem x => cases h; rw [State.loadRegs_eq]; rfl
  | _ => cases h; rfl

/-- LoadROM changes memory alone (R215). -/
theorem State.loadRom_eq (s : State) (bs : List Byte) : (s.loadRom bs).1 = { s with mem := (s.loadRom bs).1.mem } := by
  unfold State.loadRom
  split
  · rfl
  · exact s.writeBytes_eq _ bs

/-- Settles O37: the columns of the frame, one by one. -/
theorem writersOfEachComponent : Obligations.WritersOfEachComponent := by
  intro i s t h
  have hf := exec_frame h
  have hfont : t.font = s.font := by rw [hf]
  have hmem (hw : writesMem i = false) : t.mem = s.mem := by rw [hf, hw]; rfl
  have hbytes (hw : writesMem i = false) : SameBytes s t := fun a => by rw [State.readByte, hmem hw, hfont]; rfl
  refine ⟨fun hw => ⟨hbytes hw, hmem hw⟩, fun hw => ?_, fun hw => ?_, fun hw => ?_, fun hw => ?_, fun hw => ?_,
    by rw [hf], fun hw => ?_, fun hw => ⟨?_, ?_⟩, hfont, exec_keeps_driver h⟩
  all_goals rw [hf, hw]; rfl

/-- Settles O8: by the rows of R86, the last of which is every instruction that ends at pc2. -/
theorem finalProgramCounter : Obligations.FinalProgramCounter := by
  intro i s t h
  cases i with
  | sentinel | jp nnn => cases h; rfl
  | jpV0 nnn => cases h; exact s.toNat_offsetTarget nnn
  | call nnn => obtain ⟨hsp, rfl⟩ := eq_of_execCall h; rfl
  | ret =>
    obtain ⟨hb, hsp, rfl⟩ := eq_of_execRet h
    rw [finalPc, Vector.getElem?_eq_getElem hb]
    rfl
  | seImm x kk | sneImm x kk | seReg x y n | sneReg x y n =>
    cases h
    simp [finalPc, State.toNat_pc_skipIf]
  | skp x | sknp x =>
    cases h
    simp [finalPc, State.toNat_pc_skipIf, State.keys_mod_sixteen]
  | ldVxK x =>
    obtain ⟨hk, rfl⟩ | ⟨k, hk, rfl⟩ := eq_of_execLdVxK h
    · simp [finalPc, State.firstKey_eq_none.1 hk]
    · rw [finalPc, if_pos (State.exists_key_of_firstKey hk)]
      exact s.toNat_pc2
  | ldMemVx x => cases h; rw [State.dumpRegs_eq]; exact s.toNat_pc2
  | ldVxMem x => cases h; rw [State.loadRegs_eq]; exact s.toNat_pc2
  | _ => cases h; exact s.toNat_pc2

/-- Settles O12: the push writes the cell at sp, and no other. -/
theorem callPushesTheReturnAddress : Obligations.CallPushesTheReturnAddress := by
  intro s nnn hsp
  refine ⟨_, execCall_of_lt hsp nnn, ?_, fun k hk => ?_, rfl, rfl, rfl, fun a => rfl⟩
  · rw [pcPlus_two, Vector.getElem?_set_self hsp]
  · exact Vector.getElem?_set_ne hsp hk.symm

/-- Settles O15: the pop is a read of a live cell. -/
theorem returnPopsTheLastAddress : Obligations.ReturnPopsTheLastAddress := by
  intro s hsp
  obtain ⟨hb, hret⟩ := execRet_of_pos hsp
  exact ⟨_, hret, Nat.sub_add_cancel hsp, Vector.getElem?_eq_getElem hb, rfl, fun a => rfl⟩

/-! The flag register (R14). -/

/-- An instruction that writes a flag leaves 0x00 or 0x01 in VF, also where VF is its destination (R15). -/
theorem State.flag_loadRegFlag (s : State) (x : Reg) (b : Byte) (c : Bool) :
    (s.loadRegFlag x b c).reg 15 = 0x00#8 ∨ (s.loadRegFlag x b c).reg 15 = 0x01#8 := by
  rw [State.reg_loadRegFlag, if_pos rfl]
  exact flagByte_eq_zero_or_one c

/-- A load of the registers up to VX reaches VF only where X is 0xF (R177). -/
theorem State.flag_loadRegs (s : State) {x : Reg} (hx : x ≠ 15) : (s.loadRegs (x.val + 1)).reg 15 = s.reg 15 := by
  rw [State.reg_loadRegs s (by omega), if_neg]
  intro h
  have h15 : 15 < x.val + 1 := h
  exact hx (Fin.ext (show x.val = 15 by omega))

/-- The instructions with neither VF as a side effect nor a destination leave the registers as they are. -/
theorem exec_keeps_v {i : Instr} {s t : State} (h : exec i s = .next t) (hflag : writesFlag i = false)
    (hdest : destination i = none) : t.v = s.v := by
  cases i with
  | call nnn => obtain ⟨hsp, rfl⟩ := eq_of_execCall h; rfl
  | ret => obtain ⟨hb, hsp, rfl⟩ := eq_of_execRet h; rfl
  | seImm _ _ | sneImm _ _ | seReg _ _ _ | sneReg _ _ _ | skp _ | sknp _ => cases h; rw [State.skipIf_eq]
  | ldMemVx x => cases h; rw [State.dumpRegs_eq]; rfl
  | addReg _ _ | sub _ _ | shr _ _ | subn _ _ | shl _ _ | drw _ _ _ => cases hflag
  | ldImm _ _ | addImm _ _ | ldReg _ _ | orReg _ _ | andReg _ _ | xorReg _ _ | rnd _ _ | ldVxDt _ | ldVxK _
  | ldVxMem _ => cases hdest
  | _ => cases h; rfl

/-- Loading VX leaves VF alone unless VX is VF. -/
theorem State.flag_loadReg (s : State) {x : Reg} (hx : some x ≠ some 15) (b : Byte) :
    (s.loadReg x b).reg 15 = s.reg 15 := by
  rw [State.reg_loadReg, if_neg fun h => hx (congrArg some h.symm)]

/-- Settles O23: VF is written last by the six, and reached by another instruction through its destination alone. -/
theorem sixInstructionsWriteTheFlag : Obligations.SixInstructionsWriteTheFlag := by
  intro i s t h
  cases i with
  | addReg x y | sub x y | shr x y | subn x y | shl x y =>
    cases h
    exact ⟨fun _ => State.flag_loadRegFlag .., nofun⟩
  | drw x y n =>
    cases h
    refine ⟨fun _ => ?_, nofun⟩
    rw [State.advance_reg, regVF, State.reg_setReg_self]
    exact flagByte_eq_zero_or_one _
  | ldImm x _ | addImm x _ | ldReg x _ | orReg x _ | andReg x _ | xorReg x _ | rnd x _ | ldVxDt x =>
    cases h
    exact ⟨nofun, fun _ hx => State.flag_loadReg _ hx _⟩
  | ldVxK x =>
    obtain ⟨-, rfl⟩ | ⟨k, -, rfl⟩ := eq_of_execLdVxK h
    · exact ⟨nofun, fun _ _ => rfl⟩
    · exact ⟨nofun, fun _ hx => State.flag_loadReg s hx _⟩
  | ldVxMem x =>
    cases h
    exact ⟨nofun, fun _ hx => State.flag_loadRegs s fun h => hx (congrArg some h)⟩
  | _ =>
    refine ⟨nofun, fun _ _ => ?_⟩
    rw [State.reg, exec_keeps_v h rfl rfl]
    rfl

/-! The index register (R17). -/

theorem toNat_glyphAddr (b : Byte) : (glyphAddr b).toNat = b.toNat % 16 * 5 := by
  have hlow : (b &&& 0x0F#8).toNat = b.toNat % 16 := Nat.and_two_pow_sub_one_eq_mod b.toNat 4
  simp only [glyphAddr, BitVec.toNat_mul, BitVec.toNat_setWidth, BitVec.toNat_ofNat, hlow]
  omega

theorem State.toNat_idxPlus (s : State) (b : Byte) : (s.idxPlus b).toNat = (s.idx.toNat + b.toNat) % 4096 := by
  simp only [State.idxPlus, BitVec.toNat_add, BitVec.toNat_setWidth]
  omega

/-- What setting I and advancing leaves of the rest. -/
theorem State.setIdx_advance_frame (s : State) (a : Addr) : let t := (s.setIdx a).advance
    t = { s with idx := t.idx, pc := t.pc } ∧ SameBytes s t := ⟨rfl, fun _ => rfl⟩

/-- Settles O31: the three values set, each with the one frame. -/
theorem indexInstructionsSetI : Obligations.IndexInstructionsSetI := fun s x nnn =>
  ⟨⟨_, rfl, rfl, s.setIdx_advance_frame nnn⟩,
   ⟨_, rfl, s.toNat_idxPlus (s.reg x), s.setIdx_advance_frame _⟩,
   ⟨_, rfl, toNat_glyphAddr (s.reg x), s.setIdx_advance_frame _⟩⟩

/-! Reset (70_reset_and_hazards.md R240). -/

/-- Construction gives the values of R33, whatever was before. -/
theorem State.hasResetValues_construct (s : State) : HasResetValues s.font s.construct :=
  ⟨fun _ h => dif_pos h, fun _ h => dif_neg (Nat.not_lt.2 h), fun x => Vector.getElem_replicate x.isLt, rfl, rfl, rfl,
    rfl, rfl, fun k => Vector.getElem_replicate k.isLt, Display.get_clear⟩

theorem State.construct_initial (font : Vector Byte Config.fontLen) :
    (State.initial font).construct = State.initial font := rfl

/-- Settles O49: the step is the construction of the state with the Reset taken off. -/
theorem resetConstructsTheMachine : Obligations.ResetConstructsTheMachine := fun s h =>
  ⟨s.taken.construct, step_of_next h, s.taken.hasResetValues_construct, rfl, rfl, rfl, rfl, rfl⟩

/-- Settles O50: the initial state is what constructing it again gives. -/
theorem resetStateHasTheResetValues : Obligations.ResetStateHasTheResetValues := by
  have h (font) : HasResetValues font (State.initial font) := State.construct_initial font ▸
    (State.initial font).hasResetValues_construct
  exact ⟨h defaultFont, h⟩

/-- Settles O52: memory lists nothing at reset. -/
theorem resetMemoryIsCanonical : Obligations.ResetMemoryIsCanonical := State.inv_initial defaultFont

/-! Fixed points of the cycle (60_exceptions.md R225). -/

/-- The word of FX0A decodes to LD Vx,K (R69). -/
theorem decodeWord_of_wait {w : Word} (hcat : Word.cat w = 0xF#4) (hkk : Word.kk w = 0x0A#8) :
    decodeWord w = .ldVxK (Word.x w) := by
  rw [decodeWord, hcat, hkk]
  rfl

theorem cycle_of_atSentinel {s : State} (h : s.AtSentinel) : cycle s = .next s := by
  rw [cycle, State.fetch, h]
  rfl

theorem cycle_of_atSelfJump {s : State} (h : s.AtSelfJump) : cycle s = .next s := by
  rw [cycle, h]
  rfl

theorem cycle_of_awaitsKey {s : State} (h : s.AwaitsKey) : cycle s = .next s := by
  obtain ⟨hcat, hkk, hkeys⟩ := h
  rw [cycle, State.fetch, decodeWord_of_wait hcat hkk]
  exact execLdVxK_of_none (State.firstKey_eq_none.2 hkeys) _

/-- Settles O41: a fixed point of the cycle is one of the step while cycles alone are issued. -/
theorem fixedPointsOfTheCycle : Obligations.FixedPointsOfTheCycle := by
  intro s h
  have hfixed : cycle s = .next s := by
    obtain (h | h) | h := h
    · exact cycle_of_atSentinel h
    · exact cycle_of_atSelfJump h
    · exact cycle_of_awaitsKey h
  exact ⟨hfixed, fun hd => run_of_fixed core ((step_of_cycles hd).trans hfixed)⟩

end Sys2Proof.Machine
end

section
/-! PROOFS. What no instruction reads (10_state.md R22, R23, R25): the stack cells, ST and the display are looked at by
their writers alone. -/

namespace Sys2Proof.Machine
open Sys2Proof Sys2Proof.Claims

/-! Outcomes of one kind. -/

theorem sameOutcome_imp {r r' : State → State → Prop} {o p : Host.Outcome State Fault Refusal}
    (h : SameOutcome r o p) (himp : ∀ t u, o = .next t → r t u → r' t u) : SameOutcome r' o p := by
  match o, p, h with
  | .next t, .next u, h => exact himp t u rfl h
  | .fault _, .fault _, h => exact h
  | .refused _, .refused _, h => exact h

/-! The three components. -/

/-- The state with its stack cells, its sound timer and its display put through functions. -/
def State.mapUnread (s : State) (g : Vector Addr 16 → Vector Addr 16) (h : Byte → Byte) (d : Display → Display) :
    State :=
  { s with stack := g s.stack, st := h s.st, disp := d s.disp }

section
variable (s : State) (g : Vector Addr 16 → Vector Addr 16) (h : Byte → Byte) (d : Display → Display)

theorem State.skipIf_mapUnread (c : Bool) : (s.mapUnread g h d).skipIf c = (s.skipIf c).mapUnread g h d := by
  cases c <;> rfl

theorem State.dumpRegs_mapUnread (n : Nat) : (s.mapUnread g h d).dumpRegs n = (s.dumpRegs n).mapUnread g h d := by
  induction n with
  | zero => rfl
  | succ n ih => rw [State.dumpRegs_succ, State.dumpRegs_succ, ih]; rfl

theorem State.loadRegs_mapUnread (n : Nat) : (s.mapUnread g h d).loadRegs n = (s.loadRegs n).mapUnread g h d := by
  induction n with
  | zero => rfl
  | succ n ih => rw [State.loadRegs_succ, State.loadRegs_succ, ih]; rfl

theorem State.writeBytes_mapUnread (a : Addr) (bs : List Byte) :
    (s.mapUnread g h d).writeBytes a bs = (s.writeBytes a bs).mapUnread g h d := by
  induction bs generalizing s a with
  | nil => rfl
  | cons b bs ih => exact ih (s.writeByte a b) (a + 1#12)

theorem State.loadRom_mapUnread (bs : List Byte) :
    ((s.mapUnread g h d).loadRom bs).1 = ((s.loadRom bs).1).mapUnread g h d := by
  unfold State.loadRom
  split
  · rfl
  · exact s.writeBytes_mapUnread g h d _ bs

/-- CALL reads neither ST nor the display. -/
theorem execCall_mapUnread (nnn : Addr) : SameOutcome (fun t u => u = t.mapUnread id h d)
    (execCall nnn s) (execCall nnn (s.mapUnread id h d)) := by
  by_cases hsp : s.sp.val < 16
  · rw [execCall_of_lt hsp, execCall_of_lt (s := s.mapUnread id h d) hsp]
    rfl
  · have hfull : s.sp.val = 16 := by omega
    rw [execCall_of_full hfull, execCall_of_full (s := s.mapUnread id h d) hfull]
    rfl

/-- RET reads neither ST nor the display. -/
theorem execRet_mapUnread : SameOutcome (fun t u => u = t.mapUnread id h d)
    (execRet s) (execRet (s.mapUnread id h d)) := by
  by_cases hsp : 0 < s.sp.val
  · obtain ⟨_, hs⟩ := execRet_of_pos hsp
    obtain ⟨_, ht⟩ := execRet_of_pos (s := s.mapUnread id h d) hsp
    rw [hs, ht]
    rfl
  · have hempty : s.sp.val = 0 := by omega
    rw [execRet_of_empty hempty, execRet_of_empty (s := s.mapUnread id h d) hempty]
    rfl

theorem execLdVxK_mapUnread (x : Reg) : SameOutcome (fun t u => u = t.mapUnread g h d)
    (execLdVxK x s) (execLdVxK x (s.mapUnread g h d)) := by
  have hkeys : (s.mapUnread g h d).firstKey = s.firstKey := rfl
  cases hk : s.firstKey with
  | none => rw [execLdVxK_of_none hk, execLdVxK_of_none (hkeys.trans hk)]; rfl
  | some k => rw [execLdVxK_of_some hk, execLdVxK_of_some (hkeys.trans hk)]; rfl

end

/-- An instruction has the same outcome whatever the three components hold, as long as those it is a writer of are left
as they are: CALL and RET the stack cells, LD ST,Vx the sound timer, CLS and DRW the display. -/
theorem exec_mapUnread (i : Instr) (s : State) {g : Vector Addr 16 → Vector Addr 16} {h : Byte → Byte}
    {d : Display → Display} (hg : writesSp i = true → g = id) (hh : writesSt i = true → h = id)
    (hd : writesDisp i = true → d = id) :
    SameOutcome (fun t u => u = t.mapUnread g h d) (exec i s) (exec i (s.mapUnread g h d)) := by
  cases i with
  | call nnn => obtain rfl := hg rfl; exact execCall_mapUnread s h d nnn
  | ret => obtain rfl := hg rfl; exact execRet_mapUnread s h d
  | ldStVx x => obtain rfl := hh rfl; rfl
  | cls => obtain rfl := hd rfl; rfl
  | drw x y n => obtain rfl := hd rfl; rfl
  | seImm _ _ | sneImm _ _ | seReg _ _ _ | sneReg _ _ _ | skp _ | sknp _ => exact s.skipIf_mapUnread g h d _
  | ldVxK x => exact execLdVxK_mapUnread s g h d x
  | ldMemVx x => exact congrArg State.advance (s.dumpRegs_mapUnread g h d _)
  | ldVxMem x => exact congrArg State.advance (s.loadRegs_mapUnread g h d _)
  | _ => rfl

/-! ST and the display. -/

/-- Settles O38: ST is one of the components read by their writers alone, and its writer does not read it. -/
theorem soundTimerIsNeverRead : Obligations.SoundTimerIsNeverRead := by
  intro i s b
  cases hw : writesSt i with
  | false =>
    have hsame := exec_mapUnread i s (g := id) (h := fun _ => b) (d := id) (fun _ => rfl) (by simp [hw]) (fun _ => rfl)
    refine sameOutcome_imp hsame fun t u _ hu => ?_
    subst hu
    exact ⟨rfl, fun _ => rfl, nofun⟩
  | true =>
    cases i with
    | ldStVx x => exact ⟨rfl, nofun, fun _ => rfl⟩
    | _ => cases hw

/-- Settles O39: CLS and DRW apart, the display is not read. -/
theorem displayIsReadOnlyByDraw : Obligations.DisplayIsReadOnlyByDraw := by
  intro i s d
  cases hw : writesDisp i with
  | false =>
    have hsame := exec_mapUnread i s (g := id) (h := id) (d := fun _ => d) (fun _ => rfl) (fun _ => rfl) (by simp [hw])
    refine sameOutcome_imp hsame fun t u _ hu => ?_
    subst hu
    rw [if_neg (by rintro ⟨x, y, n, rfl⟩; cases hw)]
    exact ⟨rfl, fun _ => rfl, by rintro rfl; cases hw⟩
  | true =>
    cases i with
    | cls =>
      have hcls : ¬ ∃ x y n, Instr.cls = .drw x y n := nofun
      simp only [if_neg hcls]
      exact ⟨rfl, nofun, fun _ => rfl⟩
    | drw x y n =>
      have hdrw : ∃ x' y' n', Instr.drw x y n = .drw x' y' n' := ⟨x, y, n, rfl⟩
      simp only [if_pos hdrw]
      refine ⟨rfl, fun r hr => ?_⟩
      rw [State.advance_reg, State.advance_reg, regVF, State.reg_setReg_of_ne _ hr, State.reg_setReg_of_ne _ hr]
      rfl
    | _ => cases hw

/-! The dead stack cells. -/

/-- A writer of the stack cells is a writer of `sp` (R10). -/
theorem writesStack_of_writesSp {i : Instr} (h : writesSp i = false) : writesStack i = false := by
  cases i with
  | call nnn => cases h
  | _ => rfl

/-- The two states of R22 are one state with other stack cells, the live ones alike. -/
theorem sameButDeadCells_iff {s t : State} : SameButDeadCells s t ↔
    ∃ cells, t = s.mapUnread (fun _ => cells) id id ∧ ∀ k, k < s.sp.val → cells[k]? = s.stack[k]? := by
  constructor
  · rintro ⟨ht, hk⟩
    exact ⟨t.stack, ht, hk⟩
  · rintro ⟨cells, rfl, hk⟩
    exact ⟨rfl, hk⟩

section
variable {s : State} {cells : Vector Addr 16} (hc : ∀ k, k < s.sp.val → cells[k]? = s.stack[k]?)
include hc

/-- The cell CALL pushes to is written alike. -/
theorem execCall_sameButDeadCells (nnn : Addr) :
    SameOutcome SameButDeadCells (execCall nnn s) (execCall nnn (s.mapUnread (fun _ => cells) id id)) := by
  by_cases hsp : s.sp.val < 16
  · rw [execCall_of_lt hsp, execCall_of_lt (s := s.mapUnread (fun _ => cells) id id) hsp]
    refine ⟨rfl, fun k hk => ?_⟩
    change (cells.set s.sp.val s.pc2)[k]? = (s.stack.set s.sp.val s.pc2)[k]?
    rw [Vector.getElem?_set, Vector.getElem?_set]
    split
    · rfl
    · next hne => exact hc k (lt_of_le_of_ne (Nat.le_of_lt_succ hk) (Ne.symm hne))
  · have hfull : s.sp.val = 16 := by omega
    rw [execCall_of_full hfull, execCall_of_full (s := s.mapUnread (fun _ => cells) id id) hfull]
    rfl

/-- The cell RET pops is a live one. -/
theorem execRet_sameButDeadCells :
    SameOutcome SameButDeadCells (execRet s) (execRet (s.mapUnread (fun _ => cells) id id)) := by
  by_cases hsp : 0 < s.sp.val
  · obtain ⟨hb, hs⟩ := execRet_of_pos hsp
    obtain ⟨_, ht⟩ := execRet_of_pos (s := s.mapUnread (fun _ => cells) id id) hsp
    have hcell : cells[s.sp.val - 1] = s.stack[s.sp.val - 1] := by
      have hget := hc (s.sp.val - 1) (Nat.sub_one_lt_of_lt hsp)
      rwa [Vector.getElem?_eq_getElem hb, Vector.getElem?_eq_getElem hb, Option.some_inj] at hget
    rw [hs, ht]
    refine ⟨?_, fun k hk => hc k (lt_of_lt_of_le hk (Nat.sub_le ..))⟩
    change ({ s with stack := cells, sp := _, pc := cells[s.sp.val - 1] } : State) = _
    rw [hcell]
    rfl
  · have hempty : s.sp.val = 0 := by omega
    rw [execRet_of_empty hempty, execRet_of_empty (s := s.mapUnread (fun _ => cells) id id) hempty]
    rfl

/-- No instruction tells the dead stack cells: CALL writes the cell it makes live, RET reads a live one, and no other
touches the stack. -/
theorem exec_sameButDeadCells (i : Instr) :
    SameOutcome SameButDeadCells (exec i s) (exec i (s.mapUnread (fun _ => cells) id id)) := by
  cases hw : writesSp i with
  | false =>
    refine sameOutcome_imp (exec_mapUnread i s (by simp [hw]) (fun _ => rfl) (fun _ => rfl)) fun t u ht hu => ?_
    obtain ⟨-, -, hstack, hsp, -⟩ := writersOfEachComponent i s t ht
    have hstack : t.stack = s.stack := hstack (writesStack_of_writesSp hw)
    refine sameButDeadCells_iff.2 ⟨cells, hu, ?_⟩
    rw [hsp hw, hstack]
    exact hc
  | true =>
    cases i with
    | call nnn => exact execCall_sameButDeadCells hc nnn
    | ret => exact execRet_sameButDeadCells hc
    | _ => cases hw

/-- None of the five operations tells the dead stack cells. -/
theorem applyOperation_sameButDeadCells (op : Operation) :
    SameOutcome SameButDeadCells (applyOperation op s) (applyOperation op (s.mapUnread (fun _ => cells) id id)) := by
  cases op with
  | cycle => exact exec_sameButDeadCells hc s.fetch
  | tick | setKey k pressed => exact ⟨rfl, hc⟩
  | loadRom bytes =>
    refine sameButDeadCells_iff.2 ⟨cells, s.loadRom_mapUnread _ _ _ bytes, ?_⟩
    rw [State.loadRom_eq]
    exact hc
  | reset => exact ⟨rfl, fun _ _ => rfl⟩

end

/-- Settles O40: the relation is kept by taking the operation off the stream and by the operation. -/
theorem deadStackCellsAreUnobservable : Obligations.DeadStackCellsAreUnobservable := by
  intro s t h
  obtain ⟨cells, rfl, hc⟩ := sameButDeadCells_iff.1 h
  exact ⟨applyOperation_sameButDeadCells (s := s.taken) hc s.nextOperation, rfl, rfl⟩

end Sys2Proof.Machine
end

section
/-! PROOFS. The instructions that store to memory and load from it (45_memory_bcd.md R174 to R178), the fetch
(40_fetch_decode.md R81, R84), and the canonical form of memory, which every step keeps (20_memory.md R40, R42). -/

namespace Sys2Proof.Machine
open Sys2Proof Sys2Proof.Claims

/-! The canonical form of memory. -/

theorem State.inv_loadRom {s : State} (hs : s.Inv) (bs : List Byte) : (s.loadRom bs).1.Inv := by
  unfold State.loadRom
  split
  · exact hs
  · exact State.inv_writeBytes hs _ bs

/-- The two writers of memory keep its canonical form; every other instruction leaves memory and FONT alone. -/
theorem exec_keeps_inv {i : Instr} {s t : State} (hs : s.Inv) (h : exec i s = .next t) : t.Inv := by
  cases hw : writesMem i with
  | false =>
    rw [exec_frame h, hw]
    exact hs
  | true =>
    cases i with
    | ldB x => cases h; exact State.inv_storeDigits hs _
    | ldMemVx x => cases h; exact State.inv_dumpRegs hs _
    | _ => cases hw

/-- None of the five operations leaves the canonical form. -/
theorem applyOperation_keeps_inv {op : Operation} {s t : State} (hs : s.Inv) (h : applyOperation op s = .next t) :
    t.Inv := by
  cases op with
  | cycle => exact exec_keeps_inv hs h
  | tick | setKey k pressed => cases h; exact hs
  | loadRom bytes => cases h; exact State.inv_loadRom hs bytes
  | reset => cases h; exact State.inv_initial s.font

/-- Settles O53: a step is one operation, on the state with it taken off the stream, whose memory is the same. -/
theorem stepKeepsMemoryCanonical : Obligations.StepKeepsMemoryCanonical := fun s _ hs h =>
  applyOperation_keeps_inv (s := s.taken) hs h

/-! Effective addresses (R170). -/

theorem idxPlus_eq_ea (s : State) (k : Nat) : idxPlus s k = s.ea k := by
  refine BitVec.eq_of_toNat_eq ?_
  rw [State.toNat_ea, idxPlus, BitVec.toNat_ofNat, Nat.mod_mod]

theorem State.ea_zero (s : State) : s.ea 0 = s.idx := BitVec.add_zero s.idx

/-! The three decimal digits (R174). -/

theorem toNat_hundreds (b : Byte) : (hundreds b).toNat = b.toNat / 100 := by
  rw [hundreds, BitVec.toNat_ofNat]
  omega

theorem toNat_tens (b : Byte) : (tens b).toNat = b.toNat / 10 % 10 := by
  rw [tens, BitVec.toNat_ofNat]
  omega

theorem toNat_units (b : Byte) : (units b).toNat = b.toNat % 10 := by
  rw [units, BitVec.toNat_ofNat]
  omega

/-- What the digits leave at I + k, the addresses being distinct. -/
theorem readByte_storeDigits_idxPlus (s : State) (b : Byte) {k : Nat} (hk : k < 4096) :
    (s.storeDigits b).readByte (idxPlus s k) =
      if k = 2 then units b else if k = 1 then tens b else if k = 0 then hundreds b else s.readByte (s.ea k) := by
  rw [idxPlus_eq_ea, State.readByte_storeDigits]
  simp only [State.ea_inj s hk, Nat.reduceLT]

/-- The digits leave every other address alone. -/
theorem State.readByte_storeDigits_other (s : State) (b : Byte) {a : Addr} (h : ∀ k < 3, a ≠ s.ea k) :
    (s.storeDigits b).readByte a = s.readByte a := by
  rw [State.readByte_storeDigits, if_neg (h 2 (by decide)), if_neg (h 1 (by decide)), if_neg (h 0 (by decide))]

/-- Settles O32: the three digits at three distinct addresses. -/
theorem bcdStoresThreeDigits : Obligations.BcdStoresThreeDigits := by
  intro s x
  refine ⟨_, rfl, ?hundreds, ?tens, ?units, rfl, fun a ha => ?other⟩
  case hundreds =>
    rw [State.advance_readByte, readByte_storeDigits_idxPlus s _ (k := 0) (by decide)]
    exact toNat_hundreds _
  case tens =>
    rw [State.advance_readByte, readByte_storeDigits_idxPlus s _ (k := 1) (by decide)]
    exact toNat_tens _
  case units =>
    rw [State.advance_readByte, readByte_storeDigits_idxPlus s _ (k := 2) (by decide)]
    exact toNat_units _
  case other =>
    refine s.readByte_storeDigits_other _ fun k hk hak => ha ⟨k, hk, ?_⟩
    rw [idxPlus_eq_ea, hak]

/-! Register dump and register load (R176, R177). -/

/-- Settles O33: the addresses of a dump are distinct, and it stores to no other. -/
theorem registerDumpStoresEachRegister : Obligations.RegisterDumpStoresEachRegister := by
  intro s x
  refine ⟨_, rfl, fun k hk => ?stored, ?frame, fun a ha => ?other⟩
  case stored =>
    rw [idxPlus_eq_ea, State.advance_readByte, State.readByte_dumpRegs_ea s (by omega) (Nat.lt_succ_of_le hk),
      regAt_val]
  case frame =>
    rw [State.dumpRegs_eq]
    rfl
  case other =>
    refine s.readByte_dumpRegs_other fun k hk hak => ha ⟨⟨k, by omega⟩, Nat.le_of_lt_succ hk, ?_⟩
    rw [idxPlus_eq_ea, hak]

/-- Settles O34: a load reaches the registers up to VX and no other component. -/
theorem registerLoadReadsEachRegister : Obligations.RegisterLoadReadsEachRegister := by
  intro s x
  refine ⟨_, rfl, fun k hk => ?loaded, fun k hk => ?above, ?frame, fun a => ?bytes⟩
  case loaded =>
    rw [idxPlus_eq_ea, State.advance_reg, State.reg_loadRegs s (by omega), if_pos (Nat.lt_succ_of_le hk)]
  case above => rw [State.advance_reg, State.reg_loadRegs s (by omega), if_neg (Nat.not_lt.2 hk)]
  case frame | bytes =>
    rw [State.loadRegs_eq]
    rfl

/-! The fetch (R81, R84). -/

/-- The fetch reads the byte at `pc` and then the next one, as the byte decoder does. -/
theorem decodeBytes_at_pc (s : State) :
    decodeBytes [s.readByte s.pc, s.readByte (pcPlus s 1)] = .ok (s.fetch, []) := by
  rw [pcPlus_eq]
  rfl

/-- A Cycle runs the instruction at `pc`, on the state with the operation taken off the stream. -/
theorem step_of_cycle {s : State} (h : s.nextOperation = .cycle) : step s = exec s.fetch s.taken := step_of_next h

/-- Settles O5: the instruction the two bytes decode to is the one fetched. -/
theorem stepRunsTheFetchedInstruction : Obligations.StepRunsTheFetchedInstruction := by
  intro s i h
  obtain rfl : s.fetch = i := by
    rw [decodeBytes_at_pc] at h
    cases h
    rfl
  exact ⟨step_of_cycle, step_of_cycles⟩

/-- A dump of V0 and V1 at least leaves at I the word of the two, V0 the high byte (R43, R176). -/
theorem State.readWord_dumpRegs (s : State) {n : Nat} (h2 : 2 ≤ n) (hn : n ≤ 16) :
    (s.dumpRegs n).readWord s.idx = s.reg 0 ++ s.reg 1 := by
  have h0 : (s.dumpRegs n).readByte s.idx = s.reg 0 := s.ea_zero ▸ s.readByte_dumpRegs_ea hn (Nat.zero_lt_of_lt h2)
  have h1 : (s.dumpRegs n).readByte (s.idx + 1#12) = s.reg 1 := s.readByte_dumpRegs_ea hn h2
  rw [State.readWord, wordOfBytes, h0, h1]

/-- After a dump onto the cells that follow the instruction, the advance ends where the registers were stored. -/
theorem State.fetch_advance_dumpRegs {s : State} (hidx : s.idx = s.pc2) {n : Nat} (h2 : 2 ≤ n) (hn : n ≤ 16) :
    (s.dumpRegs n).advance.fetch = decodeWord (s.reg 0 ++ s.reg 1) := by
  have hpc : (s.dumpRegs n).advance.pc = s.idx := by
    rw [State.dumpRegs_eq, hidx]
    rfl
  have hword : (s.dumpRegs n).advance.readWord s.idx = s.reg 0 ++ s.reg 1 := s.readWord_dumpRegs h2 hn
  rw [State.fetch, hpc, hword]

/-- Settles O36: the dump leaves the driver's stream alone, and the next Cycle fetches the word it stored. -/
theorem storedWordIsFetchedNext : Obligations.StoredWordIsFetchedNext := by
  intro s x hop hnext hdump hx hidx
  have hstep : step s = .next (s.taken.dumpRegs (x.val + 1)).advance := by
    rw [step_of_cycle hop, State.fetch, hdump]
    rfl
  have hcycle : (s.taken.dumpRegs (x.val + 1)).advance.nextOperation = .cycle := by
    rw [State.nextOperation, State.advance_driver, State.dumpRegs_driver]
    exact hnext
  have hidx' : s.taken.idx = s.taken.pc2 := hidx.trans (pcPlus_two s)
  refine ⟨_, hstep, ?_⟩
  rw [step_of_cycle hcycle, State.fetch_advance_dumpRegs hidx' (Nat.succ_le_succ hx) x.isLt, State.taken_reg,
    State.taken_reg]

end Sys2Proof.Machine
end

section
/-! PROOFS. The decoder and the encoder (30_encoding.md): what each sub-table answers, and the two round trips. -/

namespace Sys2Proof
open Sys2Proof.Machine Sys2Proof.Claims

/-! The sub-tables (R65, R67 to R69): a key with no entry. -/

theorem decode0_of_not_mem {nnn : Addr} (h : nnn ∉ keys0) : decode0 nnn = .unrecognised0 nnn := by
  simp only [keys0, List.mem_cons, List.not_mem_nil, or_false, not_or] at h
  simp [decode0, h]

theorem decode8_of_not_mem {n : BitVec 4} (h : n ∉ keys8) (x y : Reg) : decode8 x y n = .unrecognised8 x y n := by
  simp only [keys8, List.mem_cons, List.not_mem_nil, or_false, not_or] at h
  simp [decode8, h]

theorem decodeE_of_not_mem {kk : Byte} (h : kk ∉ keysE) (x : Reg) : decodeE x kk = .unrecognisedE x kk := by
  simp only [keysE, List.mem_cons, List.not_mem_nil, or_false, not_or] at h
  simp [decodeE, h]

theorem decodeF_of_not_mem {kk : Byte} (h : kk ∉ keysF) (x : Reg) : decodeF x kk = .unrecognisedF x kk := by
  simp only [keysF, List.mem_cons, List.not_mem_nil, or_false, not_or] at h
  simp [decodeF, h]

/-! Decoding what is encoded. -/

theorem decodeWord_fmtNNN_0 (nnn : Addr) : decodeWord (fmtNNN 0x0#4 nnn) = decode0 nnn := by
  simp [decodeWord]

theorem decodeWord_fmtXYN_8 (x y : Reg) (n : BitVec 4) : decodeWord (fmtXYN 0x8#4 x y n) = decode8 x y n := by
  simp [decodeWord]

theorem decodeWord_fmtXKK_E (x : Reg) (kk : Byte) : decodeWord (fmtXKK 0xE#4 x kk) = decodeE x kk := by
  simp [decodeWord]

theorem decodeWord_fmtXKK_F (x : Reg) (kk : Byte) : decodeWord (fmtXKK 0xF#4 x kk) = decodeF x kk := by
  simp [decodeWord]

/-- Settles O1: a category without a sub-table gives the operands back by the fields of its format; a category with
one looks up the key that was written, which for a catch-all has no entry. -/
theorem decodeEncodeRoundTrip : Obligations.DecodeEncodeRoundTrip := by
  intro i hwf
  cases i with
  | sentinel | cls | ret => rfl
  | jp _ | call _ | ldI _ | jpV0 _ | seImm _ _ | sneImm _ _ | ldImm _ _ | addImm _ _ | rnd _ _ | seReg _ _ _
  | sneReg _ _ _ | drw _ _ _ => simp [encode, decodeWord]
  | ldReg x y | orReg x y | andReg x y | xorReg x y | addReg x y | sub x y | shr x y | subn x y | shl x y =>
    exact decodeWord_fmtXYN_8 x y _
  | skp x | sknp x => exact decodeWord_fmtXKK_E x _
  | ldVxDt x | ldVxK x | ldDtVx x | ldStVx x | addI x | ldF x | ldB x | ldMemVx x | ldVxMem x =>
    exact decodeWord_fmtXKK_F x _
  | unrecognised0 nnn => rw [encode, decodeWord_fmtNNN_0, decode0_of_not_mem (by simpa [WellFormed] using hwf)]
  | unrecognised8 x y n => rw [encode, decodeWord_fmtXYN_8, decode8_of_not_mem (by simpa [WellFormed] using hwf)]
  | unrecognisedE x kk => rw [encode, decodeWord_fmtXKK_E, decodeE_of_not_mem (by simpa [WellFormed] using hwf)]
  | unrecognisedF x kk => rw [encode, decodeWord_fmtXKK_F, decodeF_of_not_mem (by simpa [WellFormed] using hwf)]

/-! What the decoder answers. -/

/-- `i` is the right answer for the word `w`: it is well-formed, its word is `w`, and it is an unrecognised word exactly
when the key has no entry. -/
structure Answers (i : Instr) (w : Word) (noEntry : Bool) : Prop where
  wellFormed : WellFormed i = true
  encode_eq : encode i = w
  isUnrecognised_eq : isUnrecognised i = noEntry

theorem answers_decode0 (nnn : Addr) : Answers (decode0 nnn) (fmtNNN 0x0#4 nnn) (!keys0.contains nnn) := by
  by_cases h : nnn ∈ keys0
  · simp only [keys0, List.mem_cons, List.not_mem_nil, or_false] at h
    obtain rfl | rfl | rfl := h <;> exact ⟨rfl, rfl, rfl⟩
  · rw [decode0_of_not_mem h]
    exact ⟨by simpa [WellFormed] using h, rfl, by simpa [isUnrecognised] using h⟩

theorem answers_decode8 (x y : Reg) (n : BitVec 4) :
    Answers (decode8 x y n) (fmtXYN 0x8#4 x y n) (!keys8.contains n) := by
  by_cases h : n ∈ keys8
  · simp only [keys8, List.mem_cons, List.not_mem_nil, or_false] at h
    obtain rfl | rfl | rfl | rfl | rfl | rfl | rfl | rfl | rfl := h <;> exact ⟨rfl, rfl, rfl⟩
  · rw [decode8_of_not_mem h]
    exact ⟨by simpa [WellFormed] using h, rfl, by simpa [isUnrecognised] using h⟩

theorem answers_decodeE (x : Reg) (kk : Byte) : Answers (decodeE x kk) (fmtXKK 0xE#4 x kk) (!keysE.contains kk) := by
  by_cases h : kk ∈ keysE
  · simp only [keysE, List.mem_cons, List.not_mem_nil, or_false] at h
    obtain rfl | rfl := h <;> exact ⟨rfl, rfl, rfl⟩
  · rw [decodeE_of_not_mem h]
    exact ⟨by simpa [WellFormed] using h, rfl, by simpa [isUnrecognised] using h⟩

theorem answers_decodeF (x : Reg) (kk : Byte) : Answers (decodeF x kk) (fmtXKK 0xF#4 x kk) (!keysF.contains kk) := by
  by_cases h : kk ∈ keysF
  · simp only [keysF, List.mem_cons, List.not_mem_nil, or_false] at h
    obtain rfl | rfl | rfl | rfl | rfl | rfl | rfl | rfl | rfl := h <;> exact ⟨rfl, rfl, rfl⟩
  · rw [decodeF_of_not_mem h]
    exact ⟨by simpa [WellFormed] using h, rfl, by simpa [isUnrecognised] using h⟩

/-- The words with no entry in the sub-table of their category (R71 (b)), by their fields. -/
def Word.noEntry (w : Word) : Bool :=
  (Word.cat w == 0x0#4 && !keys0.contains (Word.nnn w)) || (Word.cat w == 0x8#4 && !keys8.contains (Word.n w)) ||
  (Word.cat w == 0xE#4 && !keysE.contains (Word.kk w)) || (Word.cat w == 0xF#4 && !keysF.contains (Word.kk w))

/-- Every word is decoded by the row of its category: the operands of a category without a sub-table are the fields of
the word in its format. -/
theorem answers_decodeWord (w : Word) : Answers (decodeWord w) w w.noEntry := by
  have hNNN := fmtNNN_fields w
  have hXKK := fmtXKK_fields w
  have hXYN := fmtXYN_fields w
  rw [Word.noEntry, decodeWord]
  generalize Word.cat w = c at *
  split
  case h_1 => simpa [hNNN] using answers_decode0 (Word.nnn w)
  case h_2 | h_3 | h_11 | h_12 => exact ⟨rfl, hNNN, rfl⟩
  case h_4 | h_5 | h_7 | h_8 | h_13 => exact ⟨rfl, hXKK, rfl⟩
  case h_6 | h_10 | h_14 => exact ⟨rfl, hXYN, rfl⟩
  case h_9 => simpa [hXYN] using answers_decode8 (Word.x w) (Word.y w) (Word.n w)
  case h_15 => simpa [hXKK] using answers_decodeE (Word.x w) (Word.kk w)
  case h_16 =>
    obtain rfl : c = 0xF#4 := by
      clear hNNN hXKK hXYN
      revert c
      decide
    simpa [hXKK] using answers_decodeF (Word.x w) (Word.kk w)

/-- Settles O2: the decoder answers rightly at every word. -/
theorem encodeDecodeRoundTrip : Obligations.EncodeDecodeRoundTrip := fun w =>
  ⟨(answers_decodeWord w).wellFormed, (answers_decodeWord w).encode_eq⟩

end Sys2Proof
end

section
/-! PROOFS. The first matching row of the opcode table (R70), the words with no table entry (R71, R85, R221), and the
four conditional skips (R105 to R108). -/

namespace Sys2Proof
open Sys2Proof.Machine Sys2Proof.Claims Sys2Proof.Laws.TableMatch

/-! The opcode table (R70). -/

/-- A word fits a row, a pair of match and mask. -/
abbrev Fits (w : Word) (r : Word × Word) : Prop := w &&& r.2 = r.1

/-- A word that fits two rows makes them agree on the bits both test. -/
theorem Fits.agree {w : Word} {p q : Word × Word} (hp : Fits w p) (hq : Fits w q) : p.1 &&& q.2 = q.1 &&& p.2 := by
  rw [← hp, ← hq, BitVec.and_assoc, BitVec.and_assoc, BitVec.and_comm p.2]

/-- The row of an instruction, in its place in the table, has the match and the mask of the family TableMatch. -/
theorem opcodeRows_rowOf (i : Instr) : opcodeRows[rowOf i]? = some ((row i).2, (row i).1) := by cases i <;> rfl

/-- The word of an instruction fits its row, by the format it is written in. -/
theorem encode_fits_row (i : Instr) : Statement i := by
  cases i with
  | sentinel | cls | ret => rfl
  | jp _ | call _ | ldI _ | jpV0 _ | unrecognised0 _ => exact mask_fmtNNN _ _
  | seImm _ _ | sneImm _ _ | ldImm _ _ | addImm _ _ | rnd _ _ | unrecognisedE _ _ | unrecognisedF _ _ =>
    exact category_fmtXKK _ _ _
  | seReg _ _ _ | sneReg _ _ _ | drw _ _ _ | unrecognised8 _ _ _ => exact category_fmtXYN _ _ _ _
  | ldReg _ _ | orReg _ _ | andReg _ _ | xorReg _ _ | addReg _ _ | sub _ _ | shr _ _ | subn _ _ | shl _ _ =>
    exact mask_fmtXYN _ _ _ _
  | _ => exact mask_fmtXKK _ _ _

/-- The catch-alls are the last rows. -/
theorem isUnrecognised_eq_rowOf (i : Instr) : isUnrecognised i = decide (35 ≤ rowOf i) := by
  cases i <;> rfl

/-- A row that stands for an entry of a sub-table. -/
def IsEntry (p : Word × Word) : Prop :=
  (p.2 = 0xFFFF#16 ∧ Word.cat p.1 = 0x0#4 ∧ Word.nnn p.1 ∈ keys0) ∨
  (p.2 = 0xF00F#16 ∧ Word.cat p.1 = 0x8#4 ∧ Word.n p.1 ∈ keys8) ∨
  (p.2 = 0xF0FF#16 ∧ Word.cat p.1 = 0xE#4 ∧ Word.kk p.1 ∈ keysE) ∨
  (p.2 = 0xF0FF#16 ∧ Word.cat p.1 = 0xF#4 ∧ Word.kk p.1 ∈ keysF)

/-- Two rows that agree on the bits both test are an entry of a sub-table and, after it, a catch-all. -/
theorem opcodeRows_agree : ∀ i j : Fin opcodeRows.length, j < i →
    opcodeRows[j].1 &&& opcodeRows[i].2 = opcodeRows[i].1 &&& opcodeRows[j].2 → 35 ≤ i.val ∧ IsEntry opcodeRows[j] := by
  unfold IsEntry
  decide +kernel

/-- The mask of category 0x8 keeps the category and the key. -/
theorem and_mask_n (w : Word) : w &&& 0xF00F#16 = fmtXYN (Word.cat w) 0 0 (Word.n w) := by
  rw [← mask_fmtXYN _ (Word.x w) (Word.y w), fmtXYN_fields]

/-- The mask of categories 0xE and 0xF keeps the category and the key. -/
theorem and_mask_kk (w : Word) : w &&& 0xF0FF#16 = fmtXKK (Word.cat w) 0 (Word.kk w) := by
  rw [← mask_fmtXKK _ (Word.x w), fmtXKK_fields]

/-- A word that fits an entry of a sub-table has its key. -/
theorem Fits.noEntry {w : Word} {p : Word × Word} (h : Fits w p) (hp : IsEntry p) : w.noEntry = false := by
  rw [IsEntry, ← h] at hp
  obtain ⟨hm, hcat, hkey⟩ | ⟨hm, hcat, hkey⟩ | ⟨hm, hcat, hkey⟩ | ⟨hm, hcat, hkey⟩ := hp <;> rw [hm] at hcat hkey
  · rw [show w &&& 0xFFFF#16 = w from BitVec.and_allOnes] at hcat hkey
    simp [Word.noEntry, hcat, hkey]
  · rw [and_mask_n, cat_fmtXYN] at hcat
    rw [and_mask_n, n_fmtXYN] at hkey
    simp [Word.noEntry, hcat, hkey]
  all_goals
    rw [and_mask_kk, cat_fmtXKK] at hcat
    rw [and_mask_kk, kk_fmtXKK] at hkey
    simp [Word.noEntry, hcat, hkey]

/-- Settles O3: the row of the answer fits the word. An earlier row that fits too would be an entry of the sub-table of
which the answer is the catch-all, yet the decoder answers a catch-all only where there is no entry. -/
theorem decodeSelectsFirstMatchingRow : Obligations.DecodeSelectsFirstMatchingRow := by
  intro w
  obtain ⟨-, hw, hun⟩ := answers_decodeWord w
  generalize decodeWord w = i at hw hun
  obtain ⟨hlt, hrow⟩ := List.getElem?_eq_some_iff.1 (opcodeRows_rowOf i)
  have hi : Fits w opcodeRows[rowOf i] := by
    rw [hrow, ← hw]
    exact encode_fits_row i
  rw [List.findIdx_eq hlt]
  refine ⟨beq_iff_eq.2 hi, fun j hj => beq_eq_false_iff_ne.2 fun hfit => ?_⟩
  obtain ⟨hlast, hentry⟩ := opcodeRows_agree ⟨rowOf i, hlt⟩ ⟨j, hj.trans hlt⟩ hj (Fits.agree hfit hi)
  rw [Fits.noEntry hfit hentry, isUnrecognised_eq_rowOf] at hun
  exact of_decide_eq_false hun hlast

/-! The words with no table entry (R71 (b)). -/

theorem Word.toNat_cat (w : Word) : (Word.cat w).toNat = w.toNat / 4096 := by
  simp only [Word.cat, BitVec.extractLsb'_toNat, Nat.shiftRight_eq_div_pow]
  omega

theorem Word.toNat_nnn (w : Word) : (Word.nnn w).toNat = w.toNat % 4096 := BitVec.extractLsb'_toNat ..

theorem Word.toNat_n (w : Word) : (Word.n w).toNat = w.toNat % 16 := BitVec.extractLsb'_toNat ..

theorem Word.toNat_kk (w : Word) : (Word.kk w).toNat = w.toNat % 256 := BitVec.extractLsb'_toNat ..

/-- R71 (b) in numbers and by the fields. -/
theorem noTableEntry_iff_noEntry (w : Word) : NoTableEntry w ↔ w.noEntry = true := by
  simp only [NoTableEntry, Word.noEntry, Bool.or_eq_true, Bool.and_eq_true, Bool.not_eq_true', beq_iff_eq,
    List.contains_eq_mem, decide_eq_false_iff_not, or_assoc, ← BitVec.toNat_inj, Word.toNat_cat]
  refine or_congr ?_ (or_congr ?_ (or_congr ?_ ?_))
  · simp only [keys0, List.mem_cons, List.not_mem_nil, or_false, ← BitVec.toNat_inj, Word.toNat_nnn, BitVec.toNat_ofNat]
    omega
  · simp only [keys8, List.mem_cons, List.not_mem_nil, or_false, ← BitVec.toNat_inj, Word.toNat_n, BitVec.toNat_ofNat]
    omega
  · simp [keysE, ← BitVec.toNat_inj, Word.toNat_kk]
  · simp [keysF, ← BitVec.toNat_inj, Word.toNat_kk]

theorem isUnrecognised_decodeWord_iff (w : Word) : isUnrecognised (decodeWord w) = true ↔ NoTableEntry w := by
  rw [noTableEntry_iff_noEntry, (answers_decodeWord w).isUnrecognised_eq]

/-- An unrecognised word only advances `pc` (R85). -/
theorem exec_of_isUnrecognised {i : Instr} (h : isUnrecognised i = true) (s : State) :
    exec i s = .next { s with pc := pcPlus s 2 } := by
  rw [pcPlus_two]
  cases i with
  | unrecognised0 _ | unrecognised8 _ _ _ | unrecognisedE _ _ | unrecognisedF _ _ => rfl
  | _ => cases h

/-- Settles O7: the word that is fetched decodes to a catch-all. -/
theorem unrecognisedWordsOnlyAdvance : Obligations.UnrecognisedWordsOnlyAdvance := by
  refine ⟨fun s h => ?_, fun s _ _ _ _ _ => ?_⟩
  · have hcycle : cycle s = .next { s with pc := pcPlus s 2 } :=
      exec_of_isUnrecognised ((isUnrecognised_decodeWord_iff _).2 h) s
    rw [cycleReport, hcycle]
  · refine ⟨?_, ?_, ?_, ?_⟩ <;> exact exec_of_isUnrecognised rfl s

/-- Settles O43: the diagnostic asks of the decoder's answer what R71 (b) asks of the word. -/
theorem diagnosticMarksUnrecognisedWords : Obligations.DiagnosticMarksUnrecognisedWords := fun _ =>
  ⟨fun h => if_pos ((isUnrecognised_decodeWord_iff _).2 h), fun h => if_neg (mt (isUnrecognised_decodeWord_iff _).1 h)⟩

/-! Words of the spec's examples. -/

/-- Settles O4: each is a closed evaluation of the decoder. -/
theorem specWordsDecode : Obligations.SpecWordsDecode := by
  unfold Obligations.SpecWordsDecode
  decide

/-! The skips (R105 to R108). -/

/-- A skip advances `pc` by 4 or by 2, and changes nothing else (R86). -/
theorem next_skipIf (s : State) (c : Bool) : (.next (s.skipIf c) : Host.Outcome State Fault Refusal) =
    .next { s with pc := pcPlus s (if c then 4 else 2) } := by
  rw [State.skipIf_eq, pcPlus_eq]
  cases c
  · rfl
  · simp [State.pc2, BitVec.add_assoc]

/-- Settles O17: each is a skip on its condition, which compares unsigned values. -/
theorem skipsCompareRegisters : Obligations.SkipsCompareRegisters := by
  intro s x y kk n
  refine ⟨(next_skipIf s _).trans ?_, (next_skipIf s _).trans ?_, (next_skipIf s _).trans ?_,
    (next_skipIf s _).trans ?_⟩ <;> simp [BitVec.toNat_inj]

end Sys2Proof
end

section
/-! PROOFS. The status of a cycle (60_exceptions.md R200, R204), what the sentinel and the end of a run come back to
(R82, R225), and the machine with no program (70_reset_and_hazards.md R242). -/

namespace Sys2Proof.Machine
open Sys2Proof Sys2Proof.Claims

/-! The status of a cycle (R89, R200). -/

/-- No instruction is refused: CALL and RET answer a next state or a fault, and every other one a next state. -/
theorem exec_ne_refused (i : Instr) (s : State) (r : Refusal) : exec i s ≠ .refused r := by
  cases i with
  | call nnn =>
    change execCall nnn s ≠ _
    by_cases hsp : s.sp.val < 16
    · rw [execCall_of_lt hsp]; nofun
    · rw [execCall_of_full (by omega)]; nofun
  | ret =>
    change execRet s ≠ _
    by_cases hsp : 0 < s.sp.val
    · obtain ⟨_, hret⟩ := execRet_of_pos hsp
      rw [hret]; nofun
    · rw [execRet_of_empty (by omega)]; nofun
  | ldVxK x =>
    change execLdVxK x s ≠ _
    cases hk : s.firstKey with
    | none => rw [execLdVxK_of_none hk]; nofun
    | some k => rw [execLdVxK_of_some hk]; nofun
  | _ => nofun

/-- A cycle that answers a next state reports it with status OK. -/
theorem cycleReport_of_next {s t : State} (h : cycle s = .next t) : cycleReport s = some (t, .ok) := by
  rw [cycleReport, h]

/-- Every cycle reports a state and a status. -/
theorem exists_cycleReport (s : State) : ∃ r, cycleReport s = some r := by
  cases hc : cycle s with
  | next t => exact ⟨(t, .ok), cycleReport_of_next hc⟩
  | fault f => cases f with
    | stackOverflow => exact ⟨(s, .stackOverflow), by rw [cycleReport, hc]⟩
    | stackUnderflow => exact ⟨(s, .stackUnderflow), by rw [cycleReport, hc]⟩
  | refused r => exact absurd hc (exec_ne_refused s.fetch s r)

/-- The state reported with a fault is the pre-cycle state (R204). -/
theorem eq_of_cycleReport_ne_ok {s u : State} {f : Status} (h : cycleReport s = some (u, f)) (hf : f ≠ .ok) :
    u = s := by
  unfold cycleReport at h
  split at h
  case h_1 => cases h; exact absurd rfl hf
  case h_2 | h_3 => cases h; rfl
  case h_4 => cases h

/-- Settles O10: the state being the pre-cycle state, the next cycle is the same cycle. -/
theorem faultLeavesStateAndRepeats : Obligations.FaultLeavesStateAndRepeats := by
  refine ⟨exists_cycleReport, fun s u f h hf => ?_⟩
  obtain rfl := eq_of_cycleReport_ne_ok h hf
  exact ⟨rfl, h⟩

/-! The sentinel (R82) and the machine with no program (R242). -/

/-- Two bytes of 0x00 at `pc` and `pc + 1` are the word of the sentinel. -/
theorem State.atSentinel_of_bytes {s : State} (hhi : s.readByte s.pc = 0x00#8)
    (hlo : s.readByte (pcPlus s 1) = 0x00#8) : s.AtSentinel := by
  rw [pcPlus_eq] at hlo
  rw [State.AtSentinel, State.readWord, hhi, hlo]
  rfl

/-- Settles O6: two bytes of 0x00 are the sentinel, one of the fixed points of the cycle. -/
theorem sentinelHoldsForever : Obligations.SentinelHoldsForever := by
  refine ⟨fun s => rfl, fun s hhi hlo => ?_⟩
  obtain ⟨hcycle, hrun⟩ := fixedPointsOfTheCycle s (.inl (.inl (State.atSentinel_of_bytes hhi hlo)))
  exact ⟨cycleReport_of_next hcycle, hrun⟩

/-- With no program the word at `pc` is the sentinel. -/
theorem State.NoProgram.atSentinel {s : State} (h : s.NoProgram) : s.AtSentinel := by
  obtain ⟨hpc, hhi, hlo⟩ := h
  refine State.atSentinel_of_bytes (hpc ▸ hhi) ?_
  rw [pcPlus, hpc]
  exact hlo

/-- The reset values leave no program, whatever FONT is: it ends below 0x200. -/
theorem noProgram_of_hasResetValues {font : Vector Byte Config.fontLen} {t : State} (h : HasResetValues font t) :
    t.NoProgram := by
  obtain ⟨-, hzero, -, -, hpc, -⟩ := h
  exact ⟨hpc, hzero 0x200#12 (by decide), hzero 0x201#12 (by decide)⟩

/-- Of the five operations LoadROM alone can place a program. -/
theorem applyOperation_keeps_noProgram {op : Operation} {s : State} (hs : s.NoProgram)
    (hop : ∀ bytes, op ≠ .loadRom bytes) : Completes (applyOperation op s) State.NoProgram := by
  cases op with
  | cycle => exact ⟨s, cycle_of_atSentinel hs.atSentinel, hs⟩
  | tick => exact ⟨s.tick, rfl, hs⟩
  | setKey k pressed => exact ⟨s.setKey k pressed, rfl, hs⟩
  | loadRom bytes => exact absurd rfl (hop bytes)
  | reset => exact ⟨s.construct, rfl, noProgram_of_hasResetValues s.hasResetValues_construct⟩

/-- Settles O51: a step is one operation on the state with it taken off the stream, whose `pc` and memory are the
same. -/
theorem coreIsSafeWithNoProgram : Obligations.CoreIsSafeWithNoProgram := by
  refine ⟨fun s hhi hlo hop => ?_, fun font => noProgram_of_hasResetValues (resetStateHasTheResetValues.2 font),
    fun s hs hop => applyOperation_keeps_noProgram (s := s.taken) hs hop⟩
  rw [step_of_next hop]
  exact cycle_of_atSentinel (s := s.taken) (State.atSentinel_of_bytes hhi hlo)

/-! The end of a run (R225). -/

/-- A `JP` to itself is no wait for a key. -/
theorem State.AtSelfJump.not_awaitsKey {s : State} (h : s.AtSelfJump) : ¬ s.AwaitsKey := by
  rintro ⟨hcat, hkk, -⟩
  have hfetch : s.fetch = .ldVxK (Word.x (s.readWord s.pc)) := decodeWord_of_wait hcat hkk
  rw [h] at hfetch
  cases hfetch

/-- The two ends of D17 recur: which word is at `pc` does not depend on the entropy source. -/
theorem State.EndedByWord.recurs {s : State} (h : s.EndedByWord) : s.Recurs := by
  obtain h | h := h
  · exact State.recurs_of_fixed fun _ _ => cycle_of_atSentinel h
  · exact State.recurs_of_fixed fun _ _ => cycle_of_atSelfJump h

theorem State.EndedByWord.ended {s : State} (h : s.EndedByWord) : s.Ended :=
  h.imp_right fun hjump => ⟨State.EndedByWord.recurs (.inr hjump), hjump.not_awaitsKey⟩

theorem State.Ended.recurs {s : State} (h : s.Ended) : s.Recurs := by
  obtain hword | ⟨hrec, -⟩ := h
  · exact State.EndedByWord.recurs (.inl hword)
  · exact hrec

/-- A state that recurs comes back after any number of cycles: each return leaves at most another entropy source, from
which the state recurs again. -/
theorem State.Recurs.exists_later {s : State} (h : s.Recurs) (n : Nat) :
    ∃ k t, n ≤ k ∧ runCycles k s = .next t ∧ s.SameBlock t := by
  induction n with
  | zero => exact ⟨0, s, le_rfl, rfl, rfl⟩
  | succ n ih =>
    obtain ⟨k, t, hk, hrun, hsame⟩ := ih
    obtain ⟨j, u, hj, hagain, hsame'⟩ := h t.entropy t.draws
    rw [← hsame] at hagain
    exact ⟨k + j, u, Nat.add_le_add hk hj, (runCycles_add hrun j).trans hagain, hsame'⟩

/-- A sequence of cycles that does not fault does not fault earlier. -/
theorem exists_runCycles_of_le {s t : State} {n k : Nat} (hle : n ≤ k) (h : runCycles k s = .next t) :
    ∃ u, runCycles n s = .next u := by
  induction n generalizing s k with
  | zero => exact ⟨s, rfl⟩
  | succ n ih =>
    obtain ⟨k, rfl⟩ := Nat.exists_eq_add_of_le' (Nat.le_of_add_left_le hle)
    rw [runCycles] at h ⊢
    cases hc : cycle s with
    | next u => rw [hc] at h; exact ih (Nat.le_of_succ_le_succ hle) h
    | fault f => rw [hc] at h; cases h
    | refused r => rw [hc] at h; cases h

/-- Settles O42: an end of a run recurs, so that every number of cycles lies before a return. -/
theorem endedRunsReturnForever : Obligations.EndedRunsReturnForever := by
  refine ⟨fun s => State.EndedByWord.ended, fun s hs => ⟨fun n => ?_, hs.recurs.exists_later⟩⟩
  obtain ⟨k, t, hk, hrun, -⟩ := hs.recurs.exists_later n
  exact exists_runCycles_of_le hk hrun

end Sys2Proof.Machine
end

section
/-! PROOFS. Control flow (41_control_flow.md): the jumps, and a RET after a CALL. -/

namespace Sys2Proof.Machine
open Sys2Proof Sys2Proof.Claims

/-- RET with `p + 1` addresses on the stack: it resumes at the last of them, and `p` are left (R104). -/
theorem exec_ret_of_top {s : State} {p : Nat} {a : Addr} (hp : p < 16) (hsp : s.sp.val = p + 1)
    (htop : s.stack[p] = a) : exec .ret s = .next { s with sp := ⟨p, Nat.lt_succ_of_lt hp⟩, pc := a } := by
  obtain ⟨hb, hret⟩ := execRet_of_pos (hsp ▸ p.succ_pos : 0 < s.sp.val)
  refine hret.trans ?_
  simp only [hsp, Nat.add_sub_cancel, htop]

/-- Settles O16: the RET pops the cell that the CALL pushed, wherever `pc` is between them. -/
theorem callThenReturnResumes : Obligations.CallThenReturnResumes := by
  intro s nnn q hsp
  have hpushed : (s.stack.set s.sp.val s.pc2)[s.sp.val] = s.pc2 := Vector.getElem_set_self hsp
  refine ⟨_, _, execCall_of_lt hsp nnn, exec_ret_of_top hsp rfl hpushed, (pcPlus_two s).symm, rfl, fun k hk => ?_⟩
  exact Vector.getElem?_set_ne hsp hk.symm

/-- Settles O11: each writes `pc` alone, the operand or the operand offset by V0. -/
theorem jumpsSetThePc : Obligations.JumpsSetThePc := fun s nnn =>
  ⟨⟨s.setPc nnn, rfl, rfl, rfl, s.setPc_readByte nnn⟩,
    ⟨s.setPc (s.offsetTarget nnn), rfl, s.toNat_offsetTarget nnn, rfl, s.setPc_readByte _⟩⟩

end Sys2Proof.Machine
end

section
/-! PROOFS. The ALU and register instructions (42_alu.md R121 to R134): the registers an instruction writes, its frame,
and the numbers that the result and the flag are. -/

namespace Sys2Proof.Machine
open Sys2Proof Sys2Proof.Claims

/-! An instruction that writes one register and no flag. -/

/-- It writes VX alone, VF included among the registers it leaves (R133). -/
theorem State.onlyReg_loadReg (s : State) (x : Reg) (b : Byte) : OnlyReg s (s.loadReg x b) x :=
  ⟨fun r hr => (s.reg_loadReg x r b).trans (if_neg hr), s.loadReg_eq x b, fun _ => rfl⟩

theorem State.reg_loadReg_self (s : State) (x : Reg) (b : Byte) : (s.loadReg x b).reg x = b :=
  (s.reg_loadReg x x b).trans (if_pos rfl)

/-! An instruction that writes a result and a flag. -/

/-- The result is in VX unless X is 0xF, the flag is in VF, and the rest is left (R15). -/
theorem writesWithFlag_loadRegFlag (s : State) (x : Reg) {b : Byte} {c : Bool} {result flag : Nat}
    (hresult : b.toNat = result) (hflag : (if c = true then 1 else 0) = flag) :
    WritesWithFlag (.next (s.loadRegFlag x b c)) s x result flag := by
  refine ⟨_, rfl, fun hx => ?_, ?_, fun r hrx hr => ?_, s.loadRegFlag_eq x b c, fun _ => rfl⟩
  · rw [State.reg_loadRegFlag, if_neg hx, if_pos rfl, hresult]
  · rw [State.reg_loadRegFlag, if_pos rfl, toNat_flagByte, hflag]
  · rw [State.reg_loadRegFlag, if_neg hr, if_neg hrx]

/-- What holds of every state with the result in VX and the flag in VF holds after it, unless VX is VF. -/
theorem completes_of_writesWithFlag {o : Host.Outcome State Fault Refusal} {s : State} {x : Reg} {result flag : Nat}
    {p : State → Prop} (hx : x ≠ 15) (h : WritesWithFlag o s x result flag)
    (hp : ∀ t : State, (t.reg x).toNat = result → (t.reg 15).toNat = flag → p t) : Completes o p := by
  obtain ⟨t, ht, hresult, hflag, -, -⟩ := h
  exact ⟨t, ht, hp t (hresult hx) hflag⟩

/-! The numbers of the table of R134. -/

theorem carryOut_iff (a b : Byte) : carryOut a b = true ↔ a.toNat + b.toNat ≥ 256 := decide_eq_true_iff

theorem noBorrow_iff (a b : Byte) : noBorrow a b = true ↔ a.toNat ≥ b.toNat := decide_eq_true_iff

/-- The difference modulo 256, without a difference below 0. -/
theorem toNat_difference (a b : Byte) : (a - b).toNat = (a.toNat + 256 - b.toNat) % 256 := by
  have := b.isLt
  rw [BitVec.toNat_sub]
  congr 1
  omega

theorem toNat_shiftRight_one (a : Byte) : (a >>> 1).toNat = a.toNat / 2 := BitVec.toNat_ushiftRight ..

theorem toNat_shiftLeft_one (a : Byte) : (a <<< 1).toNat = 2 * a.toNat % 256 := by
  rw [BitVec.toNat_shiftLeft, Nat.shiftLeft_eq, Nat.mul_comm]

/-- Settles O21: a row of the table is one write of a result and a flag, of these two numbers. -/
theorem flagOutcomeTable : Obligations.FlagOutcomeTable := fun s x _ =>
  ⟨writesWithFlag_loadRegFlag s x (BitVec.toNat_add ..) (if_congr (carryOut_iff ..) rfl rfl),
    writesWithFlag_loadRegFlag s x (toNat_difference ..) (if_congr (noBorrow_iff ..) rfl rfl),
    writesWithFlag_loadRegFlag s x (toNat_difference ..) (if_congr (noBorrow_iff ..) rfl rfl),
    writesWithFlag_loadRegFlag s x (toNat_shiftRight_one _) (lowBit_eq _),
    writesWithFlag_loadRegFlag s x (toNat_shiftLeft_one _) (highBit_eq _)⟩

/-- Settles O22: each identity holds of the two numbers in its row of the table of R134. -/
theorem resultAndFlagGiveTheExactValue : Obligations.ResultAndFlagGiveTheExactValue := by
  intro s x y hx a b
  have ha : a < 256 := (s.reg x).isLt
  have hb : b < 256 := (s.reg y).isLt
  obtain ⟨hadd, hsub, hsubn, hshr, hshl⟩ := flagOutcomeTable s x y
  exact ⟨completes_of_writesWithFlag hx hadd fun t hr hf => by rw [hr, hf]; split <;> omega,
    completes_of_writesWithFlag hx hsub fun t hr hf => by rw [hr, hf]; split <;> omega,
    completes_of_writesWithFlag hx hsubn fun t hr hf => by rw [hr, hf]; split <;> omega,
    completes_of_writesWithFlag hx hshr fun t hr hf => by rw [hr, hf]; exact Nat.div_add_mod a 2,
    completes_of_writesWithFlag hx hshl fun t hr hf => by rw [hr, hf]; omega⟩

/-! The random byte (R132, R214). -/

/-- An injected byte is drawn first. -/
theorem State.rand_of_cons {s : State} {b : Byte} {rest : List Byte} (h : s.entropy = b :: rest) : s.rand = b := by
  simp only [State.rand, h]

/-- With none injected, the free value of this draw (log entry 13). -/
theorem State.rand_of_nil {s : State} (h : s.entropy = []) : s.rand = Config.randByte s.draws := by
  simp only [State.rand, h]

/-- Settles O24: VX of the state after the draw is loaded with the masked byte. -/
theorem randomByteAndImmediate : Obligations.RandomByteAndImmediate := by
  intro s x kk
  have hx : (s.drawn.loadReg x (s.rand &&& kk)).reg x = s.rand &&& kk := State.reg_loadReg_self ..
  refine ⟨_, rfl, fun b rest h => ⟨?_, congrArg List.tail h⟩, fun h => ⟨?_, congrArg List.tail h⟩, rfl,
    fun hkk => ?_, (State.onlyReg_loadReg ..).1, rfl, fun _ => rfl⟩
  · rw [hx, State.rand_of_cons h]
  · rw [hx, State.rand_of_nil h]
  · rw [hx, hkk, BitVec.and_zero]

/-! The instructions with no flag. -/

/-- Settles O18: the word is the format of category 6, and `pc` is at pc0 + 2. -/
theorem loadImmediateWritesOneRegister : Obligations.LoadImmediateWritesOneRegister := fun x kk =>
  ⟨decodeEncodeRoundTrip (.ldImm x kk) rfl, fun s =>
    ⟨_, rfl, s.reg_loadReg_self x kk, s.onlyReg_loadReg x kk, fun h => s.toNat_pc2.trans (Nat.mod_eq_of_lt h)⟩⟩

/-- Settles O19: addition of bytes is addition modulo 256. -/
theorem addImmediateWrapsWithoutFlag : Obligations.AddImmediateWrapsWithoutFlag := by
  intro s x kk
  refine ⟨_, rfl, ?_, s.onlyReg_loadReg x _⟩
  rw [State.reg_loadReg_self, BitVec.toNat_add]

/-- Settles O20: bit `j` of a bitwise result is the operation on the two bits `j`. -/
theorem logicalOperationsLeaveTheFlag : Obligations.LogicalOperationsLeaveTheFlag := by
  intro s x y
  refine ⟨⟨_, rfl, s.reg_loadReg_self x _, s.onlyReg_loadReg x _⟩,
    ⟨_, rfl, fun j _ => ?_, s.onlyReg_loadReg x _⟩,
    ⟨_, rfl, fun j _ => ?_, s.onlyReg_loadReg x _⟩,
    ⟨_, rfl, fun j _ => ?_, s.onlyReg_loadReg x _⟩⟩
  · rw [State.reg_loadReg_self, BitVec.getLsbD_or]
  · rw [State.reg_loadReg_self, BitVec.getLsbD_and]
  · rw [State.reg_loadReg_self, BitVec.getLsbD_xor]

end Sys2Proof.Machine
end

section
/-! PROOFS. The display instructions (43_display.md R141 to R144): CLS, what one DRW does to the display and VF, and a
second DRW of the same sprite. -/

namespace Sys2Proof.Machine
open Sys2Proof Sys2Proof.Claims

/-- Settles O25: the word is looked up in the sub-table of category 0, and a clear display has every pixel 0. -/
theorem clearErasesEveryPixel : Obligations.ClearErasesEveryPixel :=
  ⟨rfl, fun s => ⟨(s.setDisp Display.clear).advance, rfl, Display.get_clear, rfl, fun _ => rfl⟩⟩

/-! One DRW. -/

/-- The pixels under the sprite of a DRW are those that its blit toggles. -/
theorem covers_iff_spriteHit (s : State) (x y : Reg) (n : BitVec 4) (r : Fin 32) (c : Fin 64) :
    Covers s x y n r c ↔ s.SpriteHit ((s.reg x).toNat % 64) ((s.reg y).toNat % 32) n.toNat r c := by
  simp only [Covers, State.SpriteHit, RowHit, spriteRow, spriteCol, spriteBit, ← Fin.val_inj, Fin.ofNat,
    idxPlus_eq_ea]
  constructor
  · rintro ⟨k, j, hk, hj, hrow, hcol, hbit⟩
    exact ⟨k, hk, hrow, j, hj, hcol, hbit⟩
  · rintro ⟨k, hk, hrow, j, hj, hcol, hbit⟩
    exact ⟨k, j, hk, hj, hrow, hcol, hbit⟩

/-- Settles O26: the blit toggles the pixels under the sprite, and VF is the byte of its collision. -/
theorem drawXorsTheSpriteMask : Obligations.DrawXorsTheSpriteMask := by
  intro s x y n
  have hrows : n.toNat ≤ 32 := by have := n.isLt; omega
  obtain ⟨hcovered, hother, hcollision⟩ := s.blit_spec ((s.reg x).toNat % 64) ((s.reg y).toNat % 32) hrows
  simp only [← covers_iff_spriteHit] at hcovered hother hcollision
  refine ⟨_, rfl, fun r c => ⟨hcovered r c, hother r c⟩, fun hlit => ?lit, fun hdark => ?dark,
    fun r hr => ?other, rfl, fun _ => rfl⟩
  case lit =>
    rw [State.advance_reg, regVF, State.reg_setReg_self, hcollision.2 hlit]
    rfl
  case dark =>
    rw [State.advance_reg, regVF, State.reg_setReg_self, Bool.eq_false_iff.2 (mt hcollision.1 hdark)]
    rfl
  case other => rw [State.advance_reg, regVF, State.reg_setReg_of_ne _ hr, State.setDisp_reg]

/-! A second DRW of the same sprite. -/

/-- The sprite lies on the same pixels in two states with the same origin, the same I and the same bytes. -/
theorem covers_congr {s t : State} {x y : Reg} (hcol : (t.reg x).toNat % 64 = (s.reg x).toNat % 64)
    (hrow : (t.reg y).toNat % 32 = (s.reg y).toNat % 32) (hidx : t.idx = s.idx) (hbytes : SameBytes s t)
    (n : BitVec 4) (r : Fin 32) (c : Fin 64) : Covers t x y n r c ↔ Covers s x y n r c := by
  simp only [Covers, idxPlus, hcol, hrow, hidx, hbytes _]

/-- A coordinate of the origin is the same before and after a write of VF, if it is when its register is VF. -/
theorem reg_toNat_mod_eq {s t : State} (hother : ∀ r, r ≠ 15 → t.reg r = s.reg r) {x : Reg} {m : Nat}
    (hflag : x = 15 → (t.reg 15).toNat % m = (s.reg 15).toNat % m) : (t.reg x).toNat % m = (s.reg x).toNat % m := by
  by_cases hx : x = 15
  · rw [hx, hflag hx]
  · rw [hother x hx]

/-- Settles O27: the two draws lie on the same pixels, and inverting a pixel twice restores it. -/
theorem drawTwiceRestoresTheDisplay : Obligations.DrawTwiceRestoresTheDisplay := by
  intro s x y n
  obtain ⟨t, ht, hpixel, -, hdark, hother, hframe, hbytes⟩ := drawXorsTheSpriteMask s x y n
  obtain ⟨u, hu, hpixel', hlit', -⟩ := drawXorsTheSpriteMask t x y n
  refine ⟨t, u, ht, hu, fun hx hy => ?_⟩
  have hidx : t.idx = s.idx := by rw [hframe]
  have hsame := covers_congr (reg_toNat_mod_eq hother hx) (reg_toNat_mod_eq hother hy) hidx hbytes n
  refine ⟨Display.ext_get fun r c => ?restored, fun hclear => ⟨hdark ?unlit, fun ⟨r, c, hc⟩ => ?lit⟩⟩
  case restored =>
    change u.pixel r c = s.pixel r c
    by_cases hc : Covers s x y n r c
    · rw [(hpixel' r c).1 ((hsame r c).2 hc), (hpixel r c).1 hc, Bool.not_not]
    · rw [(hpixel' r c).2 (mt (hsame r c).1 hc), (hpixel r c).2 hc]
  case unlit =>
    rintro ⟨r, c, -, hp⟩
    exact Bool.false_ne_true ((hclear r c).symm.trans hp)
  case lit =>
    refine hlit' ⟨r, c, (hsame r c).2 hc, ?_⟩
    rw [(hpixel r c).1 hc, hclear r c, Bool.not_false]

end Sys2Proof.Machine
end

section
/-! PROOFS. The timers and the keypad (44_timer_keypad.md R149 to R157). -/

namespace Sys2Proof.Machine
open Sys2Proof Sys2Proof.Claims

/-! The wait for a key (R155). -/

/-- The keys are searched in ascending order, so the one found is the lowest pressed key (R155). -/
theorem State.firstKey_eq_some {s : State} {k : Reg} :
    s.firstKey = some k ↔ s.key k = true ∧ ∀ j, j < k → s.key j = false := by
  rw [State.firstKey, ← Fin.find?_eq_find?_finRange, Fin.find?_eq_some_iff]

/-- Settles O30: the two cases are those of the search, none and the lowest pressed key, which fits in a byte. -/
theorem waitForKeyTakesTheLowestKey : Obligations.WaitForKeyTakesTheLowestKey := by
  refine fun s x => ⟨fun hnone => execLdVxK_of_none (State.firstKey_eq_none.2 hnone) x, fun k hk hlow => ?_⟩
  have hbyte : (BitVec.ofNat 8 k.val).toNat = k.val := Nat.mod_eq_of_lt (by omega)
  refine ⟨_, execLdVxK_of_some (State.firstKey_eq_some.2 ⟨hk, hlow⟩) x, ?_, (pcPlus_two s).symm,
    s.onlyReg_loadReg x _⟩
  rw [State.reg_loadReg_self, hbyte]

/-! The timers (R150 to R152). -/

/-- Settles O28: one is a load of a register; the other two write a timer and advance. -/
theorem timerInstructionsMoveOneByte : Obligations.TimerInstructionsMoveOneByte := fun s x =>
  ⟨⟨_, rfl, s.reg_loadReg_self x s.dt, s.onlyReg_loadReg x s.dt⟩,
    ⟨(s.setDt (s.reg x)).advance, rfl, rfl, rfl, fun _ => rfl⟩,
    ⟨(s.setSt (s.reg x)).advance, rfl, rfl, rfl, fun _ => rfl⟩⟩

/-! The skips on a key (R153, R154, R156). -/

/-- The key of the low 4 bits of a register is the key of that index (R156, D6). -/
theorem keyIndex_eq {b : Byte} {k : Reg} (h : b.toNat % 16 = k.val) : keyIndex b = k :=
  Fin.ext ((BitVec.extractLsb'_toNat ..).trans h)

/-- Settles O29: SKP skips on the masked key, SKNP on its complement, which swaps the two distances. -/
theorem keySkipsTestTheMaskedKey : Obligations.KeySkipsTestTheMaskedKey := by
  intro s x k hk
  have hkey : keyIndex (s.reg x) = k := keyIndex_eq hk
  refine ⟨(next_skipIf s _).trans ?_, (next_skipIf s _).trans ?_⟩
  · rw [hkey]
  · rw [hkey]
    cases s.key k <;> rfl

end Sys2Proof.Machine
end

section
/-! PROOFS. A register load after a register dump (45_memory_bcd.md R176 to R178). -/

namespace Sys2Proof.Machine
open Sys2Proof Sys2Proof.Claims

/-- The addresses from I on depend on I alone. -/
theorem idxPlus_congr {s t : State} (h : t.idx = s.idx) (n : Nat) : idxPlus t n = idxPlus s n := by
  rw [idxPlus, idxPlus, h]

/-- Settles O35: the dump leaves I alone, so the load reads the cells the dump stored to, whatever the registers hold. -/
theorem dumpThenLoadRestores : Obligations.DumpThenLoadRestores := by
  intro s x v
  obtain ⟨t, ht, hstored, hframe, -⟩ := registerDumpStoresEachRegister s x
  obtain ⟨u, hu, hloaded, habove, -⟩ := registerLoadReadsEachRegister { t with v := v } x
  have hidx : t.idx = s.idx := by rw [hframe]
  refine ⟨t, u, ht, hu, fun k hk => ?restored, habove⟩
  calc u.reg k
    _ = t.readByte (idxPlus t k.val) := hloaded k hk
    _ = t.readByte (idxPlus s k.val) := by rw [idxPlus_congr hidx]
    _ = s.reg k := hstored k hk

end Sys2Proof.Machine
end

section
/-! PROOFS. The completion of an instruction and the two faults (60_exceptions.md R200 to R204). -/

namespace Sys2Proof.Machine
open Sys2Proof Sys2Proof.Claims

/-- Settles O9: only CALL and RET can fail, and each completes on a stack that is not full or not empty. -/
theorem everyInstructionCompletes : Obligations.EveryInstructionCompletes := by
  intro i s hcall hret
  cases i with
  | call nnn =>
    have hfull : s.sp.val ≠ 16 := fun h => hcall ⟨⟨nnn, rfl⟩, h⟩
    exact ⟨_, execCall_of_lt (by omega) nnn⟩
  | ret =>
    obtain ⟨_, h⟩ := execRet_of_pos (Nat.pos_of_ne_zero fun h => hret ⟨rfl, h⟩)
    exact ⟨_, h⟩
  | ldVxK x =>
    cases hk : s.firstKey with
    | none => exact ⟨_, execLdVxK_of_none hk x⟩
    | some k => exact ⟨_, execLdVxK_of_some hk x⟩
  | _ => exact ⟨_, rfl⟩

/-- The only ways to a fault: a CALL on a full stack and a RET on an empty one (R203). -/
theorem cases_of_exec_fault {i : Instr} {s : State} {f : Fault} (h : exec i s = .fault f) :
    (f = .stackOverflow ∧ (∃ nnn, i = .call nnn) ∧ s.sp.val = 16) ∨
      (f = .stackUnderflow ∧ i = .ret ∧ s.sp.val = 0) := by
  by_cases hcall : (∃ nnn, i = .call nnn) ∧ s.sp.val = 16
  · obtain ⟨⟨nnn, rfl⟩, hfull⟩ := hcall
    cases h.symm.trans (execCall_of_full hfull nnn)
    exact .inl ⟨rfl, ⟨nnn, rfl⟩, hfull⟩
  by_cases hret : i = .ret ∧ s.sp.val = 0
  · obtain ⟨rfl, hempty⟩ := hret
    cases h.symm.trans (execRet_of_empty hempty)
    exact .inr ⟨rfl, rfl, hempty⟩
  · obtain ⟨t, ht⟩ := everyInstructionCompletes i s hcall hret
    cases h.symm.trans ht

/-- A cycle executes the instruction its word decodes to (R80). -/
theorem cycle_of_decode {s : State} {i : Instr} (h : decodeWord (s.readWord s.pc) = i) : cycle s = exec i s := by
  rw [cycle, State.fetch, h]

/-- Settles O13: of the two ways to a fault, the one by CALL is the only overflow. -/
theorem callOnFullStackOverflows : Obligations.CallOnFullStackOverflows := by
  refine ⟨fun i s => ⟨fun h => ?_, ?_⟩, fun s nnn hword hfull => ?_⟩
  · obtain ⟨-, hcall⟩ | ⟨hf, -⟩ := cases_of_exec_fault h
    · exact hcall
    · cases hf
  · rintro ⟨⟨nnn, rfl⟩, hfull⟩
    exact execCall_of_full hfull nnn
  · have hfault : cycle s = .fault .stackOverflow := (cycle_of_decode hword).trans (execCall_of_full hfull nnn)
    rw [cycleReport, hfault]

/-- Settles O14: of the two ways to a fault, the one by RET is the only underflow. -/
theorem returnOnEmptyStackUnderflows : Obligations.ReturnOnEmptyStackUnderflows := by
  refine ⟨fun i s => ⟨fun h => ?_, ?_⟩, fun s hword hempty => ?_⟩
  · obtain ⟨hf, -⟩ | ⟨-, hret⟩ := cases_of_exec_fault h
    · cases hf
    · exact hret
  · rintro ⟨rfl, hempty⟩
    exact execRet_of_empty hempty
  · have hfault : cycle s = .fault .stackUnderflow := (cycle_of_decode hword).trans (execRet_of_empty hempty)
    rw [cycleReport, hfault]

end Sys2Proof.Machine
end

section
/-! PROOFS. The driver's operations other than Cycle: Tick, SetKey and LoadROM (60_exceptions.md R212, R213, R215), and
the step that applies an operation (R217). -/

namespace Sys2Proof.Machine
open Sys2Proof Sys2Proof.Claims

/-! Tick (R212). -/

/-- `n` countdowns of a timer, floored at 0. -/
theorem toNat_iterate_countDown (n : Nat) (b : Byte) : (countDown^[n] b).toNat = b.toNat - n := by
  induction n generalizing b with
  | zero => rfl
  | succ n ih => rw [Function.iterate_succ_apply, ih, toNat_countDown, Nat.sub_sub, Nat.add_comm]

/-- `n` ticks count each timer down by itself and change nothing else. -/
theorem State.iterate_tick_eq (s : State) (n : Nat) :
    State.tick^[n] s = { s with dt := countDown^[n] s.dt, st := countDown^[n] s.st } := by
  induction n generalizing s with
  | zero => rfl
  | succ n ih => exact ih s.tick

/-- Settles O46: the ticks are countdowns of the two timers, each by itself. -/
theorem tickCountsDownToZero : Obligations.TickCountsDownToZero := by
  intro s n
  rw [State.iterate_tick_eq]
  exact ⟨toNat_iterate_countDown n s.dt, toNat_iterate_countDown n s.st, rfl⟩

/-! SetKey (R213). -/

/-- Setting a key flag to the value it has changes nothing. -/
theorem State.setKey_self (s : State) (k : Reg) : s.setKey k (s.key k) = s := by
  rw [State.setKey, State.key, Vector.set_getElem_self]

/-- Settles O47: by the law of a key read after SetKey. -/
theorem setKeyWritesOneFlag : Obligations.SetKeyWritesOneFlag := by
  refine fun s k pressed => ⟨?_, fun j hj => ?_, rfl, ?_⟩
  · rw [State.key_setKey, if_pos rfl]
  · rw [State.key_setKey, if_neg hj]
  · rintro rfl
    exact s.setKey_self k

/-! LoadROM (R215). -/

/-- LoadROM of a sequence that fits. -/
theorem State.loadRom_of_le {bytes : List Byte} (h : bytes.length ≤ 3584) (s : State) :
    s.loadRom bytes = (s.writeBytes Config.progBase bytes, .ok) := if_neg (Nat.not_lt.2 h)

/-- LoadROM of a sequence that is too long. -/
theorem State.loadRom_of_lt {bytes : List Byte} (h : 3584 < bytes.length) (s : State) :
    s.loadRom bytes = (s, .capacityError) := if_pos h

/-- The offset of an address from the load address; below it the difference wraps past every ROM. -/
theorem toNat_sub_progBase (a : Addr) : (a - Config.progBase).toNat = (a.toNat + 3584) % 4096 := by
  rw [BitVec.toNat_sub, Nat.add_comm]
  rfl

/-- Settles O48: an address from 0x200 on is read at its offset in the ROM, and no other address has one there. -/
theorem loadRomCopiesTheBytes : Obligations.LoadRomCopiesTheBytes := by
  refine fun s bytes => ⟨fun hlen => ?_, fun hlong => State.loadRom_of_lt hlong s⟩
  have hread := fun a : Addr => s.readByte_writeBytes Config.progBase a bytes (by omega)
  rw [State.loadRom_of_le hlen]
  refine ⟨rfl, fun k hk => ?loaded, fun a ha => ?kept, s.writeBytes_eq _ _⟩
  case loaded =>
    have hoff : (BitVec.ofNat 12 (0x200 + k) - Config.progBase).toNat = k := by
      rw [toNat_sub_progBase, BitVec.toNat_ofNat]
      omega
    rw [hread, hoff, List.getElem?_eq_getElem hk, Option.getD_some]
  case kept =>
    have hoff : bytes.length ≤ (a - Config.progBase).toNat := by
      rw [toNat_sub_progBase]
      omega
    rw [hread, List.getElem?_eq_none hoff, Option.getD_none]

/-! The step (R217). -/

/-- Settles O44: each clause is the step at that operation. -/
theorem stepAppliesTheNextOperation : Obligations.StepAppliesTheNextOperation := fun _ =>
  ⟨step_of_next, step_of_next, fun _ _ => step_of_next, fun _ => step_of_next, step_of_next⟩

end Sys2Proof.Machine
end
